-- ==== Sys2Proof/Word.lean ====
section
/-! DEFINITION. The two word types of the machine (spec 00_scope.md R6, R7): every value is unsigned. -/

namespace Sys2Proof

/-- A register, the bus and the hold latch are 8 bits wide (R6: XLEN). -/
abbrev Byte := BitVec 8

/-- A ROM cell, and so an instruction word, is 9 bits wide (R6: ILEN; R41). -/
abbrev Word := BitVec 9

end Sys2Proof
end

