-- ==== Sys2Proof/Syntax.lean ====
section
/-! DEFINITION. The instructions: one constructor per row of spec/opcode_table.json (30_encoding.md R72), with
the fields of its format (R64 to R70), the six decoder classes (R63), and the mnemonics of R75. -/

namespace Sys2Proof

/-- The six ALU operations (40_alu.md R81). Their codes are `aluCode` (Decode.lean). -/
inductive AluOp where
  | add
  | xor
  | and
  | or
  | passX
  | passY
deriving DecidableEq, Repr

/-- The six classes of the decoder with their fields (R63). -/
inductive InstrClass where
  | condBranch (inv sel : Bool) (target : BitVec 6)
  | aluOp (bx bY : BitVec 1) (op : BitVec 3) (d : BitVec 2)
  | branch (target : BitVec 6)
  | reserved (ignored : BitVec 5)
  | loadImmediate (mask : BitVec 4)
  | noOperand (sel : BitVec 3)
deriving DecidableEq, Repr

/-- One constructor per row of the opcode table. `bx`, `bY` are the bank selectors (bits 6 and 5) and `d` the
destination index (bits 1..0). `ignored` is a bit or field the decoder does not use (R67, R69). The payload of a
load immediate is the next ROM cell and is read when the instruction runs (R68, R120); it is no field here. -/
inductive Instr where
  /-- branch if carry (R101) -/
  | jc (target : BitVec 6)
  /-- branch if zero (R102) -/
  | jz (target : BitVec 6)
  /-- branch if not carry (R103) -/
  | jnc (target : BitVec 6)
  /-- branch if not zero (R104) -/
  | jnz (target : BitVec 6)
  /-- add (R86) -/
  | add (bx bY : BitVec 1) (d : BitVec 2)
  /-- exclusive or (R87) -/
  | xor (bx bY : BitVec 1) (d : BitVec 2)
  /-- and (R88) -/
  | and (bx bY : BitVec 1) (d : BitVec 2)
  /-- or (R89) -/
  | or (bx bY : BitVec 1) (d : BitVec 2)
  /-- pass the X operand (R90) -/
  | passx (bx bY : BitVec 1) (d : BitVec 2)
  /-- pass the Y operand (R91) -/
  | passy (bx bY : BitVec 1) (d : BitVec 2)
  /-- the AluOp words with op field 6 (R92) -/
  | aluOp6 (bx bY : BitVec 1) (d : BitVec 2)
  /-- the AluOp words with op field 7 (R92) -/
  | aluOp7 (bx bY : BitVec 1) (d : BitVec 2)
  /-- unconditional branch (R105) -/
  | jmp (target : BitVec 6)
  /-- the Reserved class (R133) -/
  | reserved (ignored : BitVec 5)
  /-- load immediate, opcode word (R120) -/
  | li (mask : BitVec 4)
  /-- halt (R130) -/
  | halt (ignored : BitVec 1)
  /-- clear carry (R131) -/
  | clc (ignored : BitVec 1)
  /-- invalid no-operand selector 2 or 3 (R132); `sel` is bits 2..0 whole -/
  | noopInvalid23 (ignored : BitVec 1) (sel : BitVec 3)
  /-- invalid no-operand selector 4 to 7 (R132); `sel` is bits 2..0 whole -/
  | noopInvalid47 (ignored : BitVec 1) (sel : BitVec 3)
deriving DecidableEq, Repr

/-- The mnemonics of the spec's assembler syntax (R75); every invalid word is spelled `.word`. -/
inductive Mnemonic where
  | jc | jz | jnc | jnz | add | xor | and | or | passx | passy | jmp | li | halt | clc | word
deriving DecidableEq, Repr

end Sys2Proof
end

