-- ==== Sys2Proof/WellFormed.lean ====
section
/-! DEFINITION. Which instruction terms stand for a word of the table: most fields are bounded by their type, and
the selector of an invalid no-operand row is checked here (30_encoding.md R69, 43_no_operand_and_reserved.md
R132). Also which payload words and images the spec calls well formed (R68, 92_eei_decisions.md D4). -/

namespace Sys2Proof

/-- The selector of noop.invalid2_3 is 2 or 3, that of noop.invalid4_7 is 4 to 7; every other field is bounded by
its type. -/
def Instr.wf : Instr → Bool
  | .noopInvalid23 _ sel => decide (sel = 2#3 ∨ sel = 3#3)
  | .noopInvalid47 _ sel => decide (4 ≤ sel.toNat)
  | .jc _ | .jz _ | .jnc _ | .jnz _ | .jmp _ => true
  | .add _ _ _ | .xor _ _ _ | .and _ _ _ | .or _ _ _ | .passx _ _ _ | .passy _ _ _ => true
  | .aluOp6 _ _ _ | .aluOp7 _ _ _ => true
  | .reserved _ | .li _ | .halt _ | .clc _ => true

/-- "A well-formed payload has bit 8 = 0" (R68). The core does not check it. -/
def payloadWf (w : Word) : Bool := !w.getLsbD 8

/-- An image supplies whole 2-byte cells (R44; D4 asks claims about images to premise an even length). The load
does not check it. -/
def imageWf (b : List Byte) : Bool := decide (b.length % 2 = 0)

end Sys2Proof
end

