-- ==== Sys2Proof/Decode.lean ====
section
/-! DEFINITION. The decoder (30_encoding.md R60 to R74), total on all 512 words, and the encoder written from the
same encodings (R64 to R69, R75). The ALU code table of 40_alu.md R81 stands here once (92_eei_decisions.md D1,
log 12). -/

namespace Sys2Proof

/-- The code of each ALU operation (R81, D1): the one table of the codes. -/
def aluCode : AluOp → BitVec 3
  | .add => 0
  | .xor => 1
  | .and => 2
  | .or => 3
  | .passX => 4
  | .passY => 5

/-- The operation an alu_op code names; none for the invalid codes 6 and 7 (R83). -/
def aluOpOfCode (c : BitVec 3) : Option AluOp :=
  [AluOp.add, .xor, .and, .or, .passX, .passY].find? fun op => aluCode op == c

/-- Classification by priority: the first set bit from bit 8 down wins (R63). -/
def classify (w : Word) : InstrClass :=
  if w.getLsbD 8 then .condBranch (w.getLsbD 7) (w.getLsbD 6) (w.extractLsb' 0 6)
  else if w.getLsbD 7 then
    .aluOp (w.extractLsb' 6 1) (w.extractLsb' 5 1) (w.extractLsb' 2 3) (w.extractLsb' 0 2)
  else if w.getLsbD 6 then .branch (w.extractLsb' 0 6)
  else if w.getLsbD 5 then .reserved (w.extractLsb' 0 5)
  else if w.getLsbD 4 then .loadImmediate (w.extractLsb' 0 4)
  else .noOperand (w.extractLsb' 0 3)

/-- The four conditional branches by invert and condition-select (R64, R72). -/
def condBranchInstr : Bool → Bool → BitVec 6 → Instr
  | false, false, t => .jc t
  | false, true, t => .jz t
  | true, false, t => .jnc t
  | true, true, t => .jnz t

/-- The instruction of an AluOp word (R65, R72). -/
def aluInstr (bx bY : BitVec 1) (op : BitVec 3) (d : BitVec 2) : Instr :=
  match aluOpOfCode op with
  | some .add => .add bx bY d
  | some .xor => .xor bx bY d
  | some .and => .and bx bY d
  | some .or => .or bx bY d
  | some .passX => .passx bx bY d
  | some .passY => .passy bx bY d
  | none => if op = 6#3 then .aluOp6 bx bY d else .aluOp7 bx bY d

/-- The instruction of a NoOperand word; `ignored` is bit 3, which does not select (R69, D20). -/
def noOperandInstr (ignored : BitVec 1) (sel : BitVec 3) : Instr :=
  if sel = 0#3 then .halt ignored
  else if sel = 1#3 then .clc ignored
  else if sel.toNat < 4 then .noopInvalid23 ignored sel
  else .noopInvalid47 ignored sel

/-- The instruction of a word (R63, R72). No word is rejected (R73, R74). -/
def decode (w : Word) : Instr :=
  match classify w with
  | .condBranch inv sel t => condBranchInstr inv sel t
  | .aluOp bx bY op d => aluInstr bx bY op d
  | .branch t => .jmp t
  | .reserved g => .reserved g
  | .loadImmediate m => .li m
  | .noOperand sel => noOperandInstr (w.extractLsb' 3 1) sel

/-- How many ROM words an instruction takes (R60, R187). -/
def Instr.length : Instr → Nat
  | .li _ => 2
  | .jc _ | .jz _ | .jnc _ | .jnz _ | .jmp _ => 1
  | .add _ _ _ | .xor _ _ _ | .and _ _ _ | .or _ _ _ | .passx _ _ _ | .passy _ _ _ => 1
  | .aluOp6 _ _ _ | .aluOp7 _ _ _ => 1
  | .reserved _ | .halt _ | .clc _ | .noopInvalid23 _ _ | .noopInvalid47 _ _ => 1

/-- "A decoder tells the length from the opcode word alone" (R60). -/
def wordLength (w : Word) : Nat :=
  if w.extractLsb' 4 5 = 1#5 then 2 else 1

/-- A CondBranch word (R64): `0x100 | inv<<7 | sel<<6 | t` (R75). -/
def condBranchWord (inv sel : BitVec 1) (t : BitVec 6) : Word :=
  0x100#9 ||| inv.setWidth 9 <<< 7 ||| sel.setWidth 9 <<< 6 ||| t.setWidth 9

/-- An AluOp word (R65): `0x080 | bx<<6 | by<<5 | op<<2 | d`. -/
def aluWord (bx bY : BitVec 1) (op : BitVec 3) (d : BitVec 2) : Word :=
  0x080#9 ||| bx.setWidth 9 <<< 6 ||| bY.setWidth 9 <<< 5 ||| op.setWidth 9 <<< 2 ||| d.setWidth 9

/-- A NoOperand word (R69): bit 3 and the selector. -/
def noOperandWord (ignored : BitVec 1) (sel : BitVec 3) : Word :=
  ignored.setWidth 9 <<< 3 ||| sel.setWidth 9

/-- The opcode word of an instruction (R64 to R69, R75). -/
def encode : Instr → Word
  | .jc t => condBranchWord 0 0 t
  | .jz t => condBranchWord 0 1 t
  | .jnc t => condBranchWord 1 0 t
  | .jnz t => condBranchWord 1 1 t
  | .add bx bY d => aluWord bx bY (aluCode .add) d
  | .xor bx bY d => aluWord bx bY (aluCode .xor) d
  | .and bx bY d => aluWord bx bY (aluCode .and) d
  | .or bx bY d => aluWord bx bY (aluCode .or) d
  | .passx bx bY d => aluWord bx bY (aluCode .passX) d
  | .passy bx bY d => aluWord bx bY (aluCode .passY) d
  | .aluOp6 bx bY d => aluWord bx bY 6#3 d
  | .aluOp7 bx bY d => aluWord bx bY 7#3 d
  | .jmp t => 0x040#9 ||| t.setWidth 9
  | .reserved g => 0x020#9 ||| g.setWidth 9
  | .li m => 0x010#9 ||| m.setWidth 9
  | .halt g => noOperandWord g 0
  | .clc g => noOperandWord g 1
  | .noopInvalid23 g sel => noOperandWord g sel
  | .noopInvalid47 g sel => noOperandWord g sel

/-- The two words of a load immediate: the opcode word and a payload with bit 8 clear (R68, R75). -/
def encodeLi (mask : BitVec 4) (imm : Byte) : List Word :=
  [encode (.li mask), imm.setWidth 9]

/-- The storage cell of two image bytes, low byte first, cut to bits 8..0 (R44, R45). -/
def cellOfBytes (lo hi : Byte) : Word :=
  BitVec.ofNat 9 (lo.toNat + 256 * hi.toNat)

/-- Why a byte sequence yields no instruction. -/
inductive DecodeError where
  /-- fewer than two bytes are left, so they complete no cell (R46) -/
  | incompleteCell
deriving DecidableEq, Repr

/-- The instruction at the head of a byte sequence and the bytes after its opcode word. -/
def decodeBytes : List Byte → Except DecodeError (Instr × List Byte)
  | lo :: hi :: rest => .ok (decode (cellOfBytes lo hi), rest)
  | [_] => .error .incompleteCell
  | [] => .error .incompleteCell

/-- An instruction whose bits are `w` laid out as an image: two 2-byte little-endian cells (R44), with every bit
from `nbits` up zero (log 9). -/
def tableBytes (nbits w : Nat) : List Byte :=
  [BitVec.ofNat 8 (w % 2 ^ nbits), BitVec.ofNat 8 (w % 2 ^ nbits / 2 ^ 8),
   BitVec.ofNat 8 (w % 2 ^ nbits / 2 ^ 16), BitVec.ofNat 8 (w % 2 ^ nbits / 2 ^ 24)]

/-- What the decoder reads from an instruction given by its bits as the opcode table numbers them (log 9). -/
def decodeTableWord (nbits w : Nat) : Option Instr :=
  match decodeBytes (tableBytes nbits w) with
  | .ok (i, _) => some i
  | .error _ => none

/-- The mnemonic of an instruction in the spec's syntax (R75): an invalid word is `.word`. -/
def Instr.mnemonic : Instr → Mnemonic
  | .jc _ => .jc
  | .jz _ => .jz
  | .jnc _ => .jnc
  | .jnz _ => .jnz
  | .add _ _ _ => .add
  | .xor _ _ _ => .xor
  | .and _ _ _ => .and
  | .or _ _ _ => .or
  | .passx _ _ _ => .passx
  | .passy _ _ _ => .passy
  | .jmp _ => .jmp
  | .li _ => .li
  | .halt _ => .halt
  | .clc _ => .clc
  | .aluOp6 _ _ _ | .aluOp7 _ _ _ | .reserved _ | .noopInvalid23 _ _ | .noopInvalid47 _ _ => .word

/-- The (match, mask) pair of an instruction's row in spec/opcode_table.json. -/
def Instr.row : Instr → Word × Word
  | .jc _ => (0x100, 0x1C0)
  | .jz _ => (0x140, 0x1C0)
  | .jnc _ => (0x180, 0x1C0)
  | .jnz _ => (0x1C0, 0x1C0)
  | .add _ _ _ => (0x080, 0x19C)
  | .xor _ _ _ => (0x084, 0x19C)
  | .and _ _ _ => (0x088, 0x19C)
  | .or _ _ _ => (0x08C, 0x19C)
  | .passx _ _ _ => (0x090, 0x19C)
  | .passy _ _ _ => (0x094, 0x19C)
  | .aluOp6 _ _ _ => (0x098, 0x19C)
  | .aluOp7 _ _ _ => (0x09C, 0x19C)
  | .jmp _ => (0x040, 0x1C0)
  | .reserved _ => (0x020, 0x1E0)
  | .li _ => (0x010, 0x1F0)
  | .halt _ => (0x000, 0x1F7)
  | .clc _ => (0x001, 0x1F7)
  | .noopInvalid23 _ _ => (0x002, 0x1F6)
  | .noopInvalid47 _ _ => (0x004, 0x1F4)

end Sys2Proof
end

