-- ==== Sys2Proof/Config.lean ====
section
/-! DEFINITION. The free values: what the spec leaves unspecified after an abort (60_exceptions.md R142) and
before the first reset (70_reset_and_hazards.md R171). Each is an opaque constant applied to the number of the
event (State's `freeIndex`), so nothing can be proved of its value (log 2). The OPEN parameter CYCLE_BITS
(10_state.md R25) is not here: it is the plain field `cycleBits` of State, so that every statement about all
states is a statement about every CYCLE_BITS (log 3). -/

namespace Sys2Proof.Config

/-- The unspecified value of x0 (R142, R171). -/
opaque freeX0 : Nat → Byte
/-- The unspecified value of x1 (R142, R171). -/
opaque freeX1 : Nat → Byte
/-- The unspecified value of y0 (R142, R171). -/
opaque freeY0 : Nat → Byte
/-- The unspecified value of y1 (R142, R171). -/
opaque freeY1 : Nat → Byte
/-- The unspecified value of bank_x (R142, R171). -/
opaque freeBankX : Nat → BitVec 1
/-- The unspecified value of bank_y (R142, R171). -/
opaque freeBankY : Nat → BitVec 1
/-- The unspecified value of alu_op (R142, R171). -/
opaque freeAluOp : Nat → BitVec 3
/-- The unspecified value of carry (R142, R171). -/
opaque freeCarry : Nat → Bool
/-- The unspecified value of zero (R142, R171). -/
opaque freeZero : Nat → Bool
/-- The unspecified value of bus (R142, R171). -/
opaque freeBus : Nat → Byte
/-- The unspecified value of hold (R142, R171). -/
opaque freeHold : Nat → Byte
/-- The unspecified value of ip (R142, R171). -/
opaque freeIp : Nat → BitVec 7
/-- The unspecified value of cycle_count, before it is cut to CYCLE_BITS (R142, R171, R187). -/
opaque freeCycleCount : Nat → Nat
/-- The unspecified value of halted before the first reset (R171). -/
opaque freeHalted : Nat → Bool
/-- The unspecified code of halt_cause before the first reset (R171). -/
opaque freeHaltCause : Nat → BitVec 2
/-- The unspecified code of abort_reason before the first reset (R171). -/
opaque freeAbortReason : Nat → BitVec 2
/-- The unspecified value of imm_mode before the first reset (R171). -/
opaque freeImmMode : Nat → Bool

end Sys2Proof.Config
end

