-- ==== Sys2Proof/Machine/State.lean ====
section
/-! DEFINITION. The state aggregate (10_state.md R10), the reasons a step can stop, the state after reset (R34)
and the state before the first reset (70_reset_and_hazards.md R171). -/

namespace Sys2Proof.Machine

/-- The four general registers (R11). -/
structure Regs where
  x0 : Byte
  x1 : Byte
  y0 : Byte
  y1 : Byte
deriving DecidableEq, Repr

/-- The controller states (R23, R170). -/
inductive Ctrl where
  | preReset
  | running
  | halted
  | aborted
deriving DecidableEq, Repr

/-- Why the machine halted (R22, R143). -/
inductive HaltCause where
  | none
  | halt
  | faultReserved
  | faultNoop
deriving DecidableEq, Repr

/-- Why the instance aborted (R24, R144). -/
inductive AbortReason where
  | none
  | fetchRange
  | immRange
  | aluOp
deriving DecidableEq, Repr

/-- The ROM as data: the cells that do not read 0, as pairs of address and 9-bit cell, addresses rising (R41;
log 7). -/
abbrev Memory := List (Nat × Word)

/-- The machine state (R10). The last two fields are the model's own: the parameter CYCLE_BITS (log 3) and the
number of the next free value (log 2). -/
structure State where
  /-- x0, x1, y0, y1 (R11) -/
  regs : Regs
  /-- bank_x (R14) -/
  bankX : BitVec 1
  /-- bank_y (R14) -/
  bankY : BitVec 1
  /-- alu_op (R15) -/
  aluOp : BitVec 3
  /-- carry (R16) -/
  carry : Bool
  /-- zero (R17) -/
  zero : Bool
  /-- bus (R18) -/
  bus : Byte
  /-- hold (R19) -/
  hold : Byte
  /-- instruction_pointer (R20) -/
  ip : BitVec 7
  /-- halted (R21) -/
  halted : Bool
  /-- halt_cause (R22) -/
  haltCause : HaltCause
  /-- abort_reason (R24) -/
  abortReason : AbortReason
  /-- ctrl (R23) -/
  ctrl : Ctrl
  /-- cycle_count (R25) -/
  cycleCount : Nat
  /-- imm_mode (R26) -/
  immMode : Bool
  /-- rom (R27) -/
  rom : Memory
  /-- the parameter CYCLE_BITS: none is an unbounded counter (R25, D11) -/
  cycleBits : Option Nat
  /-- how many free values have been drawn (log 2) -/
  freeIndex : Nat
deriving DecidableEq, Repr

/-- The reasons a step stops with a fault: there are none. The spec's faults are states: a fault-halt enters
Halted and an abort enters Aborted (R141, R142), and both are next states of the step (log 11). -/
inductive Fault where
deriving DecidableEq, Repr

/-- The reasons a step or a host operation is refused. -/
inductive Refusal where
  /-- raised by exec for an instruction without a meaning (safe); no instruction is in that case -/
  | notModelled (mnemonic : String)
  /-- raised by step, and the host's step and run, in PreReset: the state there is unspecified (R176; safe) -/
  | stepBeforeReset
  /-- raised by the host's load while Running (R48; safe) -/
  | loadWhileRunning
deriving DecidableEq, Repr

/-- The machine right after reset (R34), with no image loaded, so that every cell reads 0 (R171, D13), and
CYCLE_BITS at the spec's default (R25). freeIndex is what a reset of `State.powerOn` leaves (log 2). -/
def State.reset : State where
  regs := { x0 := 0, x1 := 0, y0 := 0, y1 := 0 }
  bankX := 0
  bankY := 0
  aluOp := 0
  carry := false
  zero := true
  bus := 0
  hold := 0
  ip := 0
  halted := false
  haltCause := .none
  abortReason := .none
  ctrl := .running
  cycleCount := 0
  immMode := false
  rom := []
  cycleBits := none
  freeIndex := 1

end Sys2Proof.Machine
end

