-- ==== Sys2Proof/Machine/Operands.lean ====
section
/-! DEFINITION. The operand forms: registers by index and by bank, the write-enable mask, branch targets, and ROM
cells by address (10_state.md R11 to R13, R29; 20_memory.md R41 to R46; 30_encoding.md R70). -/

namespace Sys2Proof.Machine

/-- A register by its index: x0 = 0, x1 = 1, y0 = 2, y1 = 3 (R11). -/
def Regs.get (r : Regs) (i : BitVec 2) : Byte :=
  if i = 0 then r.x0 else if i = 1 then r.x1 else if i = 2 then r.y0 else r.y1

/-- Write one register by its index (R11). -/
def Regs.set (r : Regs) (i : BitVec 2) (v : Byte) : Regs :=
  if i = 0 then { r with x0 := v }
  else if i = 1 then { r with x1 := v }
  else if i = 2 then { r with y0 := v }
  else { r with y1 := v }

/-- The two banks (R12). -/
inductive Bank where
  | x
  | y
deriving DecidableEq, Repr

/-- The index of a bank's register that a selector chooses: bank_base + selector (R13). -/
def Bank.index : Bank → BitVec 1 → BitVec 2
  | .x, s => s.setWidth 2
  | .y, s => 2#2 + s.setWidth 2

/-- The banked read mux `read(bank, selector)` (R13). -/
def Regs.read (r : Regs) (b : Bank) (sel : BitVec 1) : Byte := r.get (b.index sel)

/-- Latch one value into every register whose mask bit is set, together (R29). -/
def Regs.latch (r : Regs) (mask : BitVec 4) (v : Byte) : Regs where
  x0 := if mask.getLsbD 0 then v else r.x0
  x1 := if mask.getLsbD 1 then v else r.x1
  y0 := if mask.getLsbD 2 then v else r.y0
  y1 := if mask.getLsbD 3 then v else r.y1

/-- The write-enable mask of one destination register, `1 << d` (R84). -/
def destMask (d : BitVec 2) : BitVec 4 := 1#4 <<< d.toNat

/-- A branch target as the instruction pointer holds it, `zext_7` (R70). -/
def targetIp (t : BitVec 6) : BitVec 7 := t.setWidth 7

/-- What a cell that is not listed reads as: an unloaded or zero-filled cell is 0 (R46, R171, D13; log 7). -/
def Memory.unlisted : Word := 0

/-- Rising addresses from `lo` up, all below 64, and no listed cell equal to what an unlisted one reads as. -/
def Memory.wfFrom (lo : Nat) : Memory → Bool
  | [] => true
  | (a, v) :: m => decide (lo ≤ a) && decide (a < 64) && decide (v ≠ unlisted) && wfFrom (a + 1) m

/-- The one canonical form of a ROM (R41; log 7). -/
def Memory.wf (m : Memory) : Bool := wfFrom 0 m

/-- The cell at an address, whatever the address. -/
def Memory.get : Memory → Nat → Word
  | [], _ => unlisted
  | (a, v) :: m, k => if a = k then v else get m k

/-- `RomRead(a)`: the cell at a for a in 0..63; no cell for any other address (R43). -/
def Memory.romRead (m : Memory) (a : Nat) : Option Word :=
  if a < 64 then some (m.get a) else none

/-- Put a cell in front of a ROM whose addresses are all larger, keeping the canonical form. -/
def Memory.cons (a : Nat) (v : Word) (m : Memory) : Memory :=
  if v = unlisted then m else (a, v) :: m

/-- Write one cell, keeping the canonical form. Only what stands for the host's load writes cells (R42). -/
def Memory.set : Memory → Nat → Word → Memory
  | [], k, v => cons k v []
  | (a, w) :: m, k, v =>
    if k < a then cons k v ((a, w) :: m)
    else if k = a then cons k v m
    else (a, w) :: set m k v

/-- The cells from address `a` on, `n` of them, given by a function of the address. -/
def Memory.tabulate (cell : Nat → Word) : Nat → Nat → Memory
  | _, 0 => []
  | a, n + 1 => cons a (cell a) (tabulate cell (a + 1) n)

/-- The cell an image supplies at address k: bytes 2k and 2k + 1, or 0 if the image does not complete it (R44 to
R46). -/
def imageCell (b : List Byte) (k : Nat) : Word :=
  if 2 * k + 1 < b.length then cellOfBytes (b.getD (2 * k) 0) (b.getD (2 * k + 1) 0) else 0

/-- `LoadRom(b)`: the ROM of an image; cells beyond 64 are ignored (R46). -/
def loadRom (b : List Byte) : Memory := Memory.tabulate (imageCell b) 0 64

end Sys2Proof.Machine
end

