-- ==== Sys2Proof/Machine/Flags.lean ====
section
/-! DEFINITION. The ALU function and the flags (40_alu.md R80 to R82, R93), the flag test of a conditional branch
(41_control_flow.md R100), and the cycle counter's arithmetic (10_state.md R25). -/

namespace Sys2Proof.Machine

/-- The exact 9-bit sum of two 8-bit operands (R81, R93). -/
def addNine (a b : Byte) : BitVec 9 := a.setWidth 9 + b.setWidth 9

/-- `AluFn(op, a, b)`: the result and the carry (R81). -/
def aluFn : AluOp → Byte → Byte → Byte × Bool
  | .add, a, b => ((addNine a b).setWidth 8, (addNine a b).getLsbD 8)
  | .xor, a, b => (a ^^^ b, false)
  | .and, a, b => (a &&& b, false)
  | .or, a, b => (a ||| b, false)
  | .passX, a, _ => (a, false)
  | .passY, _, b => (b, false)

/-- The zero flag of a result, for every operation (R82). -/
def zeroFlag (r : Byte) : Bool := decide (r = 0)

/-- The flag a conditional branch selects: zero for condition-select 1, carry for 0 (R100). -/
def selectedFlag (sel : Bool) (s : State) : Bool := if sel then s.zero else s.carry

/-- "Branch is taken iff selected_flag XOR invert is true" (R100). -/
def branchTaken (inv sel : Bool) (s : State) : Bool := xor (selectedFlag sel s) inv

/-- A count as the cycle counter of the given width holds it (R25, D11). -/
def wrapCycle : Option Nat → Nat → Nat
  | none, n => n
  | some b, n => n % 2 ^ b

/-- The counter after one more fetch (R25, R62). -/
def nextCycle (bits : Option Nat) (n : Nat) : Nat := wrapCycle bits (n + 1)

end Sys2Proof.Machine
end

