-- ==== Sys2Proof/Machine/Ops.lean ====
section
/-! DEFINITION. The operations the meanings share: the ALU evaluation, the write-enable strobe, the ALU
instruction's sequence, the pointer's writes, and the two ways an instruction ends the run, a halt and an abort
(10_state.md R28 to R31, 40_alu.md R82 to R84, 60_exceptions.md R141, R142). The machine has no trap entry and no
trap return (R147): `haltWith` and `abort` are all there is. -/

namespace Sys2Proof.Machine

/-- What an operation that may abort answers: the state it leaves, or the reason it aborts for. -/
abbrev Try := Except AbortReason State

/-- `AluEval()`: hold, carry and zero from the selected operands and alu_op; an invalid code aborts (R80, R82,
R83). -/
def aluEval (s : State) : Try :=
  match aluOpOfCode s.aluOp with
  | none => .error .aluOp
  | some op =>
    let rc := aluFn op (s.regs.read .x s.bankX) (s.regs.read .y s.bankY)
    .ok { s with hold := rc.1, carry := rc.2, zero := zeroFlag rc.1 }

/-- The source of a write-enable: in immediate mode bits 7..0 of the ROM cell at ip, else the bus (R28). -/
def writeSource (s : State) : Except AbortReason Byte :=
  if s.immMode then
    match s.rom.romRead s.ip.toNat with
    | none => .error .immRange
    | some w => .ok (w.setWidth 8)
  else .ok s.bus

/-- `WriteEnable(mask)`: latch the source into the registers of the mask, then evaluate the ALU on the new values
(R28 to R31; the order is D23, log 13). -/
def writeEnable (mask : BitVec 4) (s : State) : Try :=
  match writeSource s with
  | .error why => .error why
  | .ok v => aluEval { s with regs := s.regs.latch mask v }

/-- `abort(reason)`: ctrl, the reason and the other controller fields are set, rom is kept, and every datapath
field takes a free value (R142; logs 1 and 2). imm_mode is 0, as at every boundary (R26; log 4). -/
def abort (why : AbortReason) (s : State) : State where
  regs := { x0 := Config.freeX0 s.freeIndex, x1 := Config.freeX1 s.freeIndex,
            y0 := Config.freeY0 s.freeIndex, y1 := Config.freeY1 s.freeIndex }
  bankX := Config.freeBankX s.freeIndex
  bankY := Config.freeBankY s.freeIndex
  aluOp := Config.freeAluOp s.freeIndex
  carry := Config.freeCarry s.freeIndex
  zero := Config.freeZero s.freeIndex
  bus := Config.freeBus s.freeIndex
  hold := Config.freeHold s.freeIndex
  ip := Config.freeIp s.freeIndex
  halted := false
  haltCause := .none
  abortReason := why
  ctrl := .aborted
  cycleCount := wrapCycle s.cycleBits (Config.freeCycleCount s.freeIndex)
  immMode := false
  rom := s.rom
  cycleBits := s.cycleBits
  freeIndex := s.freeIndex + 1

/-- How an instruction started in `s` ends: with the state its sequence leaves, or with the abort. -/
def settle (s : State) : Try → State
  | .ok t => t
  | .error why => abort why s

/-- Enter Halted with a cause; nothing else changes. A normal halt has cause HALT (R130), a fault-halt the cause
of R141 and R143. -/
def haltWith (cause : HaltCause) (s : State) : State :=
  { s with halted := true, haltCause := cause, ctrl := .halted }

/-- The ALU instruction's sequence: set the selectors and alu_op, evaluate, drive the bus, write the destination
through the strobe, which evaluates again (R84, R85). -/
def aluSequence (bx bY : BitVec 1) (op : BitVec 3) (d : BitVec 2) (s : State) : Try :=
  match aluEval { s with bankX := bx, bankY := bY, aluOp := op } with
  | .error why => .error why
  | .ok t => writeEnable (destMask d) { t with bus := t.hold }

/-- The load immediate's sequence: write the registers of the mask from the cell at ip, in immediate mode, and
advance ip a second time, unmasked (R120). -/
def loadSequence (mask : BitVec 4) (s : State) : Try :=
  match writeEnable mask { s with immMode := true } with
  | .error why => .error why
  | .ok t => .ok { t with immMode := false, ip := t.ip + 1 }

/-- Overwrite the instruction pointer with an absolute target (R105). -/
def branchTo (t : BitVec 6) (s : State) : State := { s with ip := targetIp t }

/-- The conditional branch: taken, it overwrites ip; not taken, it leaves ip past the word (R100). -/
def condBranch (inv sel : Bool) (t : BitVec 6) (s : State) : State :=
  if branchTaken inv sel s then branchTo t s else s

end Sys2Proof.Machine
end

