-- ==== Sys2Proof/Machine/Alu.lean ====
section
/-! DEFINITION. The AluOp class: the six operations and the two invalid codes (40_alu.md R86 to R92), each the
sequence of R84 with its op code. -/

namespace Sys2Proof.Machine

/-- add (R86). -/
def execAdd (bx bY : BitVec 1) (d : BitVec 2) (s : State) : Host.Outcome State Fault Refusal :=
  .next (settle s (aluSequence bx bY (aluCode .add) d s))

/-- xor (R87). -/
def execXor (bx bY : BitVec 1) (d : BitVec 2) (s : State) : Host.Outcome State Fault Refusal :=
  .next (settle s (aluSequence bx bY (aluCode .xor) d s))

/-- and (R88). -/
def execAnd (bx bY : BitVec 1) (d : BitVec 2) (s : State) : Host.Outcome State Fault Refusal :=
  .next (settle s (aluSequence bx bY (aluCode .and) d s))

/-- or (R89). -/
def execOr (bx bY : BitVec 1) (d : BitVec 2) (s : State) : Host.Outcome State Fault Refusal :=
  .next (settle s (aluSequence bx bY (aluCode .or) d s))

/-- passx (R90). -/
def execPassx (bx bY : BitVec 1) (d : BitVec 2) (s : State) : Host.Outcome State Fault Refusal :=
  .next (settle s (aluSequence bx bY (aluCode .passX) d s))

/-- passy (R91). -/
def execPassy (bx bY : BitVec 1) (d : BitVec 2) (s : State) : Host.Outcome State Fault Refusal :=
  .next (settle s (aluSequence bx bY (aluCode .passY) d s))

/-- AluOp word with op 6: the first evaluation aborts with ALU_OP (R92). -/
def execAluOp6 (bx bY : BitVec 1) (d : BitVec 2) (s : State) : Host.Outcome State Fault Refusal :=
  .next (settle s (aluSequence bx bY 6#3 d s))

/-- AluOp word with op 7: the first evaluation aborts with ALU_OP (R92). -/
def execAluOp7 (bx bY : BitVec 1) (d : BitVec 2) (s : State) : Host.Outcome State Fault Refusal :=
  .next (settle s (aluSequence bx bY 7#3 d s))

end Sys2Proof.Machine
end

