-- ==== Sys2Proof/Machine/ControlFlow.lean ====
section
/-! DEFINITION. The branches jc, jz, jnc, jnz and jmp (41_control_flow.md R101 to R105). -/

namespace Sys2Proof.Machine

/-- jc: branch if carry is set; inv = 0, sel = 0 (R101). -/
def execJc (t : BitVec 6) (s : State) : Host.Outcome State Fault Refusal :=
  .next (condBranch false false t s)

/-- jz: branch if zero is set; inv = 0, sel = 1 (R102). -/
def execJz (t : BitVec 6) (s : State) : Host.Outcome State Fault Refusal :=
  .next (condBranch false true t s)

/-- jnc: branch if carry is clear; inv = 1, sel = 0 (R103). -/
def execJnc (t : BitVec 6) (s : State) : Host.Outcome State Fault Refusal :=
  .next (condBranch true false t s)

/-- jnz: branch if zero is clear; inv = 1, sel = 1 (R104). -/
def execJnz (t : BitVec 6) (s : State) : Host.Outcome State Fault Refusal :=
  .next (condBranch true true t s)

/-- jmp: branch always (R105). -/
def execJmp (t : BitVec 6) (s : State) : Host.Outcome State Fault Refusal :=
  .next (branchTo t s)

end Sys2Proof.Machine
end

