-- ==== Sys2Proof/Machine/LoadImmediate.lean ====
section
/-! DEFINITION. The load immediate (42_load_immediate.md R120 to R124). -/

namespace Sys2Proof.Machine

/-- li: write the payload at ip into the registers of the mask, re-evaluate the ALU, skip the payload; at address
63 the payload does not exist and the instruction aborts with IMM_RANGE (R120). -/
def execLi (mask : BitVec 4) (s : State) : Host.Outcome State Fault Refusal :=
  .next (settle s (loadSequence mask s))

end Sys2Proof.Machine
end

