-- ==== Sys2Proof/Machine/NoOperand.lean ====
section
/-! DEFINITION. The no-operand instructions and the reserved class (43_no_operand_and_reserved.md R130 to R133). -/

namespace Sys2Proof.Machine

/-- halt: the normal halt (R130); bit 3 of the word is ignored (R69). -/
def execHalt (_ignored : BitVec 1) (s : State) : Host.Outcome State Fault Refusal :=
  .next (haltWith .halt s)

/-- clc: clear carry, "no other state change" (R131); bit 3 of the word is ignored (R69). -/
def execClc (_ignored : BitVec 1) (s : State) : Host.Outcome State Fault Refusal :=
  .next { s with carry := false }

/-- invalid no-operand selector 2 or 3: fault-halt FAULT_NOOP (R132). -/
def execNoopInvalid23 (_ignored : BitVec 1) (_sel : BitVec 3) (s : State) : Host.Outcome State Fault Refusal :=
  .next (haltWith .faultNoop s)

/-- invalid no-operand selector 4 to 7: fault-halt FAULT_NOOP (R132). -/
def execNoopInvalid47 (_ignored : BitVec 1) (_sel : BitVec 3) (s : State) : Host.Outcome State Fault Refusal :=
  .next (haltWith .faultNoop s)

/-- the Reserved class: fault-halt FAULT_RESERVED (R133). -/
def execReserved (_ignored : BitVec 5) (s : State) : Host.Outcome State Fault Refusal :=
  .next (haltWith .faultReserved s)

end Sys2Proof.Machine
end

