-- ==== Sys2Proof/Machine/Dispatch.lean ====
section
/-! DEFINITION. The dispatch of a decoded instruction (70_reset_and_hazards.md R174): one arm per constructor. -/

namespace Sys2Proof.Machine

def exec (i : Instr) (s : State) : Host.Outcome State Fault Refusal :=
  match i with
  | .jc t => Sys2Proof.Machine.execJc t s
  | .jz t => Sys2Proof.Machine.execJz t s
  | .jnc t => Sys2Proof.Machine.execJnc t s
  | .jnz t => Sys2Proof.Machine.execJnz t s
  | .add bx bY d => Sys2Proof.Machine.execAdd bx bY d s
  | .xor bx bY d => Sys2Proof.Machine.execXor bx bY d s
  | .and bx bY d => Sys2Proof.Machine.execAnd bx bY d s
  | .or bx bY d => Sys2Proof.Machine.execOr bx bY d s
  | .passx bx bY d => Sys2Proof.Machine.execPassx bx bY d s
  | .passy bx bY d => Sys2Proof.Machine.execPassy bx bY d s
  | .aluOp6 bx bY d => Sys2Proof.Machine.execAluOp6 bx bY d s
  | .aluOp7 bx bY d => Sys2Proof.Machine.execAluOp7 bx bY d s
  | .jmp t => Sys2Proof.Machine.execJmp t s
  | .reserved g => Sys2Proof.Machine.execReserved g s
  | .li m => Sys2Proof.Machine.execLi m s
  | .halt g => Sys2Proof.Machine.execHalt g s
  | .clc g => Sys2Proof.Machine.execClc g s
  | .noopInvalid23 g sel => Sys2Proof.Machine.execNoopInvalid23 g sel s
  | .noopInvalid47 g sel => Sys2Proof.Machine.execNoopInvalid47 g sel s

end Sys2Proof.Machine
end

