-- ==== Sys2Proof/Machine/Fetch.lean ====
section
/-! DEFINITION. What a step does before dispatch: the controller's gate (70_reset_and_hazards.md R174 to R176) and
the fetch (30_encoding.md R62); and the placing of one instruction where the next step fetches it. -/

namespace Sys2Proof.Machine

/-- What the controller issues at a cycle boundary. -/
inductive Issue where
  /-- PreReset: the step is refused (R176) -/
  | refuse
  /-- Halted or Aborted: the step has no effect (R175) -/
  | idle
  /-- Running, and the fetch aborts (R62) -/
  | abortFetch
  /-- Running: the fetched word, and the state after the fetch's increments (R62) -/
  | dispatch (w : Word) (s : State)
deriving DecidableEq, Repr

/-- ip and cycle_count each go up by one, before dispatch (R62). -/
def advance (s : State) : State :=
  { s with ip := s.ip + 1, cycleCount := nextCycle s.cycleBits s.cycleCount }

/-- `Fetch()`: outside the ROM it aborts, before any increment; else the word and the advanced state (R62, R145). -/
def fetch (s : State) : Issue :=
  match s.rom.romRead s.ip.toNat with
  | none => .abortFetch
  | some w => .dispatch w (advance s)

/-- The controller issues a cycle only while Running (R174 to R176) and while `halted` is false (R21; log 5). -/
def issue (s : State) : Issue :=
  match s.ctrl with
  | .preReset => .refuse
  | .halted => .idle
  | .aborted => .idle
  | .running => if s.halted then .idle else fetch s

/-- The address a placed instruction goes to: ip where ip names a cell, else the reset entry point (log 9). -/
def placeIp (s : State) : BitVec 7 := if s.ip.toNat < 64 then s.ip else 0

/-- The two cells of an instruction given by its bits as the opcode table numbers them (log 9). -/
def tableCell (nbits w k : Nat) : Word := imageCell (tableBytes nbits w) k

/-- The ROM with an instruction's two cells placed from address a on; a cell at 64 does not exist. -/
def placeCells (m : Memory) (a nbits w : Nat) : Memory :=
  if a + 1 < 64 then (m.set a (tableCell nbits w 0)).set (a + 1) (tableCell nbits w 1)
  else m.set a (tableCell nbits w 0)

/-- The state with one instruction placed where the next step fetches it, and Running so that it does (log 9). -/
def placeInstr (s : State) (nbits w : Nat) : State :=
  { s with
    rom := placeCells s.rom (placeIp s).toNat nbits w
    ip := placeIp s
    ctrl := .running
    halted := false
    haltCause := .none
    abortReason := .none }

end Sys2Proof.Machine
end

