-- ==== Sys2Proof/Machine/Step.lean ====
section
/-! DEFINITION. One step of the machine (70_reset_and_hazards.md R174 to R176). -/

namespace Sys2Proof.Machine

/-- "step once": fetch, classify, dispatch, one atomic transition (R174); no effect when Halted or Aborted (R175);
refused in PreReset (R176). -/
def step (s : State) : Host.Outcome State Fault Refusal :=
  match issue s with
  | .refuse => .refused .stepBeforeReset
  | .idle => .next s
  | .abortFetch => .next (abort .fetchRange s)
  | .dispatch w t => exec (decode w) t

/-- `s` with the instruction whose bits are `w` where the next step fetches it (log 9). -/
def State.withFetchWord (s : State) (nbits w : Nat) : State := placeInstr s nbits w

end Sys2Proof.Machine
end

