-- ==== Sys2Proof/Machine/Assembly.lean ====
section
/-! DEFINITION. The spec's assembler lines as data, the words each stands for, the pseudo-instructions, and the
disassembly of a word (30_encoding.md R75, R76; D15). The text format itself is out of scope (00_scope.md R4). -/

namespace Sys2Proof

/-- One assembler line (R75, R76). Registers are indices, selectors and masks as the encodings hold them. -/
inductive AsmLine where
  /-- an instruction of one word -/
  | op (i : Instr)
  /-- `li {r,...}, imm`: two words -/
  | li (mask : BitVec 4) (imm : Byte)
  /-- `.word v` -/
  | word (v : Word)
  /-- `mov rd, xs` -/
  | movX (rd : BitVec 2) (xs : BitVec 1)
  /-- `mov rd, ys` -/
  | movY (rd : BitVec 2) (ys : BitVec 1)
  /-- `clr {r,...}` -/
  | clr (mask : BitVec 4)
  /-- `nop` at the address `a` -/
  | nop (a : BitVec 6)
deriving DecidableEq, Repr

/-- The words of a line; a `nop` exists only at an address up to 62 (R76). -/
def AsmLine.words : AsmLine → Option (List Word)
  | .op i => some [encode i]
  | .li m imm => some (encodeLi m imm)
  | .word v => some [v]
  | .movX rd xs => some [encode (.passx xs 0 rd)]
  | .movY rd ys => some [encode (.passy 0 ys rd)]
  | .clr m => some (encodeLi m 0)
  | .nop a => if a.toNat ≤ 62 then some [encode (.jmp (a + 1))] else none

/-- How a disassembler prints a word: 0x008 as halt, 0x009 as clc, every invalid word as `.word` (R75); a li, being one
word here, without its payload (log 21). -/
def disassemble (w : Word) : AsmLine :=
  match (decode w).mnemonic with
  | .word => .word w
  | .halt => .op (.halt 0)
  | .clc => .op (.clc 0)
  | _ => .op (decode w)

/-- The spelling of a mnemonic (R75). -/
def Mnemonic.text : Mnemonic → String
  | .jc => "jc"
  | .jz => "jz"
  | .jnc => "jnc"
  | .jnz => "jnz"
  | .add => "add"
  | .xor => "xor"
  | .and => "and"
  | .or => "or"
  | .passx => "passx"
  | .passy => "passy"
  | .jmp => "jmp"
  | .li => "li"
  | .halt => "halt"
  | .clc => "clc"
  | .word => ".word"

end Sys2Proof
end

