-- ==== Sys2Proof/Machine/Controller.lean ====
section
/-! DEFINITION. The machine controller outside a step: the state before the first reset, and the reset sequence
(70_reset_and_hazards.md R171 to R173). -/

namespace Sys2Proof.Machine

/-- A halt cause by its code (R143). -/
def HaltCause.ofCode (c : BitVec 2) : HaltCause :=
  if c = 0 then .none else if c = 1 then .halt else if c = 2 then .faultReserved else .faultNoop

/-- The code of a halt cause (R143). -/
def HaltCause.code : HaltCause → BitVec 2
  | .none => 0
  | .halt => 1
  | .faultReserved => 2
  | .faultNoop => 3

/-- An abort reason by its code (R144). -/
def AbortReason.ofCode (c : BitVec 2) : AbortReason :=
  if c = 0 then .none else if c = 1 then .fetchRange else if c = 2 then .immRange else .aluOp

/-- The code of an abort reason (R144). -/
def AbortReason.code : AbortReason → BitVec 2
  | .none => 0
  | .fetchRange => 1
  | .immRange => 2
  | .aluOp => 3

/-- The machine before its first reset: PreReset, an all-zero rom, and every other field unspecified (R171, D13;
log 6). -/
def State.powerOn : State where
  regs := { x0 := Config.freeX0 0, x1 := Config.freeX1 0, y0 := Config.freeY0 0, y1 := Config.freeY1 0 }
  bankX := Config.freeBankX 0
  bankY := Config.freeBankY 0
  aluOp := Config.freeAluOp 0
  carry := Config.freeCarry 0
  zero := Config.freeZero 0
  bus := Config.freeBus 0
  hold := Config.freeHold 0
  ip := Config.freeIp 0
  halted := Config.freeHalted 0
  haltCause := HaltCause.ofCode (Config.freeHaltCause 0)
  abortReason := AbortReason.ofCode (Config.freeAbortReason 0)
  ctrl := .preReset
  cycleCount := Config.freeCycleCount 0
  immMode := Config.freeImmMode 0
  rom := []
  cycleBits := none
  freeIndex := 1

/-- The reset sequence up to its write-enable of all four registers (R172). -/
def resetSequence (s : State) : Try :=
  writeEnable 0b1111
    { s with
      halted := false
      haltCause := .none
      abortReason := .none
      cycleCount := 0
      ip := 0
      aluOp := 0
      bankX := 0
      bankY := 0
      bus := 0
      immMode := false }

/-- `reset()`: allowed from every state; rom is kept (R172, R173). -/
def hostReset (s : State) : State :=
  match resetSequence s with
  | .ok t => { t with ctrl := .running }
  | .error why => abort why s

end Sys2Proof.Machine
end

