-- ==== Sys2Proof/Machine/HostPort.lean ====
section
/-! DEFINITION. The host's five operations at a cycle boundary (70_reset_and_hazards.md R174 to R179), the snapshot
(10_state.md R32), the trace record (60_exceptions.md R153) and the result of a run (R178). -/

namespace Sys2Proof.Machine

/-- "Read current state": every field of R10 but imm_mode (R32, D22). In PreReset and Aborted its unspecified
fields are free values (R171, R142). -/
structure Snapshot where
  regs : Regs
  bankX : BitVec 1
  bankY : BitVec 1
  aluOp : BitVec 3
  carry : Bool
  zero : Bool
  bus : Byte
  hold : Byte
  ip : BitVec 7
  halted : Bool
  haltCause : HaltCause
  abortReason : AbortReason
  ctrl : Ctrl
  cycleCount : Nat
  rom : Memory
deriving DecidableEq, Repr

/-- `read_state()` (R179). -/
def hostRead (s : State) : Snapshot where
  regs := s.regs
  bankX := s.bankX
  bankY := s.bankY
  aluOp := s.aluOp
  carry := s.carry
  zero := s.zero
  bus := s.bus
  hold := s.hold
  ip := s.ip
  halted := s.halted
  haltCause := s.haltCause
  abortReason := s.abortReason
  ctrl := s.ctrl
  cycleCount := s.cycleCount
  rom := s.rom

/-- `load(bytes)`: only rom changes; refused while Running (R44 to R48). -/
def hostLoad (b : List Byte) (s : State) : Host.Outcome State Fault Refusal :=
  if s.ctrl = .running then .refused .loadWhileRunning else .next { s with rom := loadRom b }

/-- How a traced cycle ended: the snapshot after it, or the abort reason in its place (R153). -/
inductive TraceEnd where
  | after (s : Snapshot)
  | aborted (why : AbortReason)
deriving DecidableEq, Repr

/-- The trace record of one cycle; word, class and mnemonic stand when they were determined (R153, D17). -/
structure TraceRecord where
  fetchAddr : BitVec 7
  word : Option Word
  cls : Option InstrClass
  mnemonic : Option Mnemonic
  ending : TraceEnd
deriving DecidableEq, Repr

/-- What `step()` returns to the host (R175, R179). -/
inductive StepReport where
  | traced (r : TraceRecord)
  | notRunning
deriving DecidableEq, Repr

/-- The ending of a cycle that left the state `t`. -/
def traceEnd (t : State) : TraceEnd :=
  if t.ctrl = .aborted then .aborted t.abortReason else .after (hostRead t)

/-- The report of a step from `s` to `t` (R153, R175). -/
def stepReport (s t : State) : StepReport :=
  match issue s with
  | .refuse => .notRunning
  | .idle => .notRunning
  | .abortFetch => .traced ⟨s.ip, none, none, none, traceEnd t⟩
  | .dispatch w _ => .traced ⟨s.ip, some w, some (classify w), some (decode w).mnemonic, traceEnd t⟩

/-- `step()` with what it returns (R179). -/
def hostStep (s : State) : Host.Outcome (State × StepReport) Fault Refusal :=
  match step s with
  | .next t => .next (t, stepReport s t)
  | .fault r => .fault r
  | .refused r => .refused r

/-- "run until halted" repeats Step while Running (R177), here at most `fuel` times: running out of fuel is not an
end state (D21). -/
def runLoop : Nat → State → Host.Outcome State Fault Refusal
  | 0, s => .next s
  | fuel + 1, s =>
    if s.ctrl = .running then
      match step s with
      | .next t => runLoop fuel t
      | .fault r => .fault r
      | .refused r => .refused r
    else .next s

/-- What `run()` returns (R178, R179). -/
inductive RunReport where
  | halted (x0 : Byte) (cycles : Nat) (cause : HaltCause)
  | aborted (why : AbortReason)
deriving DecidableEq, Repr

/-- The report of a run that stands at `t`; none while it has not ended (R178). -/
def runReport (t : State) : Option RunReport :=
  match t.ctrl with
  | .halted => some (.halted t.regs.x0 t.cycleCount t.haltCause)
  | .aborted => some (.aborted t.abortReason)
  | .running => none
  | .preReset => none

/-- `run()` under fuel: refused in PreReset (R179). -/
def hostRun (fuel : Nat) (s : State) : Host.Outcome (State × Option RunReport) Fault Refusal :=
  if s.ctrl = .preReset then .refused .stepBeforeReset
  else
    match runLoop fuel s with
    | .next t => .next (t, runReport t)
    | .fault r => .fault r
    | .refused r => .refused r

/-- The host's operations (R179). -/
inductive HostOp where
  | load (b : List Byte)
  | reset
  | step
  | run (fuel : Nat)
  | readState
deriving DecidableEq, Repr

/-- The state a host operation leaves, or its refusal (R179). -/
def applyHost : HostOp → State → Host.Outcome State Fault Refusal
  | .load b, s => hostLoad b s
  | .reset, s => .next (hostReset s)
  | .step, s => step s
  | .run fuel, s => if s.ctrl = .preReset then .refused .stepBeforeReset else runLoop fuel s
  | .readState, s => .next s

end Sys2Proof.Machine
end

