-- ==== Sys2Proof/Safety.lean ====
section
/-! DEFINITION. What counts as a legal state at a cycle boundary, and as the end of a run, in the terms the
statements use (10_state.md R15, R20, R23, R25, R26; 70_reset_and_hazards.md R178). -/

namespace Sys2Proof.Machine

/-- R23: halted agrees with ctrl, and halt_cause and abort_reason are NONE exactly outside Halted and Aborted. -/
abbrev ControllerConsistent (s : State) : Prop :=
  (s.halted = true ↔ s.ctrl = .halted) ∧
  (s.haltCause = .none ↔ s.ctrl ≠ .halted) ∧
  (s.abortReason = .none ↔ s.ctrl ≠ .aborted)

/-- R15 and R20: alu_op is 0..5 and ip is 0..64 in a state that is not aborted. -/
abbrev DatapathLegal (s : State) : Prop :=
  s.ctrl ≠ .aborted → s.aluOp.toNat < 6 ∧ s.ip.toNat ≤ 64

/-- R25: cycle_count is a value of CYCLE_BITS bits. -/
abbrev CycleInRange (s : State) : Prop :=
  wrapCycle s.cycleBits s.cycleCount = s.cycleCount

/-- The invariant of a cycle boundary: a canonical ROM and, once the machine has been reset, R23, R26, R25, R15
and R20. Before the first reset the other fields are unspecified (R171; log 6). -/
abbrev AtBoundary (s : State) : Prop :=
  s.rom.wf = true ∧
  (s.ctrl ≠ .preReset →
    ControllerConsistent s ∧ s.immMode = false ∧ CycleInRange s ∧ DatapathLegal s)

/-- The next step issues a cycle and its fetch is inside the ROM (R21, R62, R174). -/
abbrev ReadyToFetch (s : State) : Prop :=
  s.ctrl = .running ∧ s.halted = false ∧ s.ip.toNat < 64

/-- A normal halt: the end of a run with an observable result and cause HALT (R178). -/
abbrev HaltedNormally (s : State) : Prop := s.ctrl = .halted ∧ s.haltCause = .halt

/-- An aborted state as R142 and R23 give it: the reason, and neither halted nor with a cause. -/
abbrev AbortedWith (why : AbortReason) (s : State) : Prop :=
  s.ctrl = .aborted ∧ s.abortReason = why ∧ s.halted = false ∧ s.haltCause = .none

end Sys2Proof.Machine

namespace Sys2Proof

/-- The words whose instruction is in the AluOp class (R65). -/
def Instr.isAlu : Instr → Bool
  | .add _ _ _ | .xor _ _ _ | .and _ _ _ | .or _ _ _ | .passx _ _ _ | .passy _ _ _ => true
  | .aluOp6 _ _ _ | .aluOp7 _ _ _ => true
  | .jc _ | .jz _ | .jnc _ | .jnz _ | .jmp _ | .reserved _ | .li _ | .halt _ | .clc _ => false
  | .noopInvalid23 _ _ | .noopInvalid47 _ _ => false

/-- The registers an instruction may write, as a mask: the destination of an ALU instruction (R84), the mask of a
load immediate (R120), none else (R11). -/
def Instr.dests : Instr → BitVec 4
  | .add _ _ d | .xor _ _ d | .and _ _ d | .or _ _ d | .passx _ _ d | .passy _ _ d => 1#4 <<< d.toNat
  | .aluOp6 _ _ _ | .aluOp7 _ _ _ => 0
  | .li m => m
  | .jc _ | .jz _ | .jnc _ | .jnz _ | .jmp _ | .reserved _ | .halt _ | .clc _ => 0
  | .noopInvalid23 _ _ | .noopInvalid47 _ _ => 0

/-- The words that are no valid instruction, by their bits: the Reserved class, no-operand selectors 2 to 7, and AluOp
op 6 and 7 (R73). -/
abbrev InvalidWord (w : Word) : Prop :=
  32 ≤ w.toNat ∧ w.toNat < 64 ∨
  w.toNat < 16 ∧ 2 ≤ w.toNat % 8 ∨
  128 ≤ w.toNat ∧ w.toNat < 256 ∧ 6 ≤ w.toNat / 4 % 8

/-- The two invalid AluOp rows (R92). -/
def Instr.isInvalidAlu : Instr → Bool
  | .aluOp6 _ _ _ | .aluOp7 _ _ _ => true
  | .add _ _ _ | .xor _ _ _ | .and _ _ _ | .or _ _ _ | .passx _ _ _ | .passy _ _ _ => false
  | .jc _ | .jz _ | .jnc _ | .jnz _ | .jmp _ | .reserved _ | .li _ | .halt _ | .clc _ => false
  | .noopInvalid23 _ _ | .noopInvalid47 _ _ => false

/-- The load immediate (R120). -/
def Instr.isLi : Instr → Bool
  | .li _ => true
  | .add _ _ _ | .xor _ _ _ | .and _ _ _ | .or _ _ _ | .passx _ _ _ | .passy _ _ _ => false
  | .aluOp6 _ _ _ | .aluOp7 _ _ _ => false
  | .jc _ | .jz _ | .jnc _ | .jnz _ | .jmp _ | .reserved _ | .halt _ | .clc _ => false
  | .noopInvalid23 _ _ | .noopInvalid47 _ _ => false

/-- Clear carry (R131). -/
def Instr.isClc : Instr → Bool
  | .clc _ => true
  | .add _ _ _ | .xor _ _ _ | .and _ _ _ | .or _ _ _ | .passx _ _ _ | .passy _ _ _ => false
  | .aluOp6 _ _ _ | .aluOp7 _ _ _ => false
  | .jc _ | .jz _ | .jnc _ | .jnz _ | .jmp _ | .reserved _ | .li _ | .halt _ => false
  | .noopInvalid23 _ _ | .noopInvalid47 _ _ => false

/-- The halt cause of an instruction that halts the machine: halt, the Reserved class, the invalid no-operand
selectors (R130, R132, R133). -/
def Instr.haltCause : Instr → Option Machine.HaltCause
  | .halt _ => some .halt
  | .reserved _ => some .faultReserved
  | .noopInvalid23 _ _ | .noopInvalid47 _ _ => some .faultNoop
  | .add _ _ _ | .xor _ _ _ | .and _ _ _ | .or _ _ _ | .passx _ _ _ | .passy _ _ _ => none
  | .aluOp6 _ _ _ | .aluOp7 _ _ _ => none
  | .jc _ | .jz _ | .jnc _ | .jnz _ | .jmp _ | .li _ | .clc _ => none

end Sys2Proof
end

