-- ==== Sys2Proof/Certificates/Slice0/Obligations.lean ====
section
/-! DEFINITION. The statements about the model, for the provers. A statement about what an instruction does is an
equation whose right side writes out the whole next state, so it says at once that the instruction completes, its
result, and its frame. "D<n>" is a decision of spec/92_eei_decisions.md that the spec marks as its own choice; a
statement that rests on one says so and has basis "derived". -/

open Sys2Proof Sys2Proof.Machine

/-! ## Decode and encode -/

/-- R63: the highest set bit picks the class. The six ranges of words are those in which bit 8, 7, 6, 5, 4 or none
of them is the highest set one; the fields are written as quotients of the word. -/
def Obligations.ClassifyByHighestSetBit : Prop :=
  ∀ w : Word,
    (256 ≤ w.toNat → classify w =
      .condBranch (decide (w.toNat / 128 % 2 = 1)) (decide (w.toNat / 64 % 2 = 1)) (BitVec.ofNat 6 w.toNat)) ∧
    (128 ≤ w.toNat ∧ w.toNat < 256 → classify w =
      .aluOp (BitVec.ofNat 1 (w.toNat / 64)) (BitVec.ofNat 1 (w.toNat / 32)) (BitVec.ofNat 3 (w.toNat / 4))
        (BitVec.ofNat 2 w.toNat)) ∧
    (64 ≤ w.toNat ∧ w.toNat < 128 → classify w = .branch (BitVec.ofNat 6 w.toNat)) ∧
    (32 ≤ w.toNat ∧ w.toNat < 64 → classify w = .reserved (BitVec.ofNat 5 w.toNat)) ∧
    (16 ≤ w.toNat ∧ w.toNat < 32 → classify w = .loadImmediate (BitVec.ofNat 4 w.toNat)) ∧
    (w.toNat < 16 → classify w = .noOperand (BitVec.ofNat 3 w.toNat))

/-- R64 to R67: a word put together from the fields of a format is of that class, with those fields. -/
def Obligations.FormatsOfTheOneWordClasses : Prop :=
  (∀ (inv sel : Bool) (t : BitVec 6),
    classify (BitVec.ofNat 9 (256 + 128 * inv.toNat + 64 * sel.toNat + t.toNat)) = .condBranch inv sel t) ∧
  (∀ (bx bY : BitVec 1) (op : BitVec 3) (d : BitVec 2),
    classify (BitVec.ofNat 9 (128 + 64 * bx.toNat + 32 * bY.toNat + 4 * op.toNat + d.toNat)) =
      .aluOp bx bY op d) ∧
  (∀ t : BitVec 6, classify (BitVec.ofNat 9 (64 + t.toNat)) = .branch t) ∧
  (∀ g : BitVec 5, classify (BitVec.ofNat 9 (32 + g.toNat)) = .reserved g)

/-- One or two words of every family, written out from the spec's encodings and vectors (R72, R75), decode to the
instruction they stand for. The codes of ALU operations 1 to 5 are D1, bit 3 of a no-operand word is D20. -/
def Obligations.WordsDecodeAsTheOpcodeMapSays : Prop :=
  decode 0b100001001 = .jc 9 ∧ decode 0b101001100 = .jz 12 ∧
  decode 0b110000110 = .jnc 6 ∧ decode 0b111111111 = .jnz 63 ∧
  decode 0b010000011 = .add 0 0 3 ∧ decode 0b011100011 = .add 1 1 3 ∧
  decode 0b010000111 = .xor 0 0 3 ∧ decode 0b010001011 = .and 0 0 3 ∧ decode 0b010001111 = .or 0 0 3 ∧
  decode 0b011010010 = .passx 1 0 2 ∧ decode 0b010110100 = .passy 0 1 0 ∧
  decode 0b010011000 = .aluOp6 0 0 0 ∧ decode 0b011111111 = .aluOp7 1 1 3 ∧
  decode 0b001001110 = .jmp 14 ∧ decode 0b000111111 = .reserved 31 ∧ decode 0b000010101 = .li 5 ∧
  decode 0b000000000 = .halt 0 ∧ decode 0b000001000 = .halt 1 ∧
  decode 0b000000001 = .clc 0 ∧ decode 0b000001001 = .clc 1 ∧
  decode 0b000000010 = .noopInvalid23 0 2 ∧ decode 0b000001111 = .noopInvalid47 1 7

/-- Decoding the word of a well-formed instruction gives the instruction back, with every operand at every value the
encoding admits (R64 to R69, R72; the ALU codes are D1, bit 3 of a no-operand word is D20). -/
def Obligations.DecodeOfEncodeIsTheInstruction : Prop :=
  ∀ i : Instr, i.wf = true → decode (encode i) = i

/-- Every one of the 512 words decodes to a well-formed instruction, and encoding that gives the word back: no bit of
a word is lost (R63, R72; D1, D20). -/
def Obligations.EncodeOfDecodeIsTheWord : Prop :=
  ∀ w : Word, (decode w).wf = true ∧ encode (decode w) = w

/-- What a disassembler prints for each word: 0x008 as halt and 0x009 as clc, every invalid word (Reserved, no-operand
selector 2 to 7, AluOp op 6 or 7) as .word, every other word as its instruction. So a disassembled word assembles to
itself, but for 0x008 and 0x009, which assemble to 0x000 and 0x001 (R75; the syntax is D15, log 20; bit 3 is D20, log
14; printing a li without its payload is the model's choice, log 21). -/
def Obligations.DisassemblyAssemblesBack : Prop :=
  disassemble 0x008 = .op (.halt 0) ∧ disassemble 0x009 = .op (.clc 0) ∧
  ∀ w : Word,
    (InvalidWord w → disassemble w = .word w) ∧
    (¬InvalidWord w → w ≠ 0x008 → w ≠ 0x009 → disassemble w = .op (decode w)) ∧
    (disassemble w).words = some [if w = 0x008 then 0x000 else if w = 0x009 then 0x001 else w]

/-! ## Step and fetch -/

/-- Inside the ROM a step of a running machine is the dispatch of the fetched word in the state whose ip and
cycle_count have each gone up by one (R62; the count modulo 2^CYCLE_BITS where that is finite is the parameter of D11,
log 3); outside it the step aborts with FETCH_RANGE, as a next state that is Aborted, not halted and without a cause
(R142 with D7 and D8; logs 1, 17 and 18). -/
def Obligations.StepRunsTheDecodedInstruction : Prop :=
  ∀ s : State, s.ctrl = .running → s.halted = false →
    (∀ w : Word, s.rom.romRead s.ip.toNat = some w →
      step s = exec (decode w)
        { s with
          ip := s.ip + 1
          cycleCount := match s.cycleBits with
            | none => s.cycleCount + 1
            | some b => (s.cycleCount + 1) % 2 ^ b }) ∧
    (64 ≤ s.ip.toNat → ∃ t, step s = .next t ∧ AbortedWith .fetchRange t)

/-- An instruction placed where the next step fetches it is the one that step runs, and it is the one the decoder
reads from the same bits. The placing is the model's own (log 9). -/
def Obligations.PlacedInstructionRunsNext : Prop :=
  ∀ (s : State) (nbits w : Nat), s.rom.wf = true → s.ip.toNat < 64 →
    ∃ i, decodeTableWord nbits w = some i ∧ i = decode (BitVec.ofNat 9 (w % 2 ^ nbits)) ∧
      step (s.withFetchWord nbits w) = exec i (advance (s.withFetchWord nbits w)) ∧
      (s.withFetchWord nbits w).rom.wf = true

/-- A step in Halted or Aborted has no effect, and a step in PreReset is refused (R175, R176; both are D12). -/
def Obligations.StepOutsideRunning : Prop :=
  ∀ s : State,
    (s.ctrl = .halted ∨ s.ctrl = .aborted → step s = .next s ∧ hostStep s = .next (s, .notRunning)) ∧
    (s.ctrl = .preReset → step s = .refused .stepBeforeReset)

/-- How a step of a running machine ends (R145, R170): it always answers a next state. It is Aborted exactly when the
fetch is outside the ROM, the word is an AluOp word with op 6 or 7, or it is a load immediate at address 63, each
with its reason; it is Halted exactly for the words that halt, each with its cause; else it is Running. Aborts are D7,
D8 and D9, halt causes D10. -/
def Obligations.StepEndsAsTheTransitionTableSays : Prop :=
  ∀ s : State, AtBoundary s → s.ctrl = .running →
    ∃ t, step s = .next t ∧
      (64 ≤ s.ip.toNat → AbortedWith .fetchRange t) ∧
      (∀ i : Instr, s.ip.toNat < 64 → i = decode (s.rom.get s.ip.toNat) →
        (i.isInvalidAlu = true → AbortedWith .aluOp t) ∧
        (i.isLi = true → s.ip.toNat = 63 → AbortedWith .immRange t) ∧
        (∀ c, i.haltCause = some c → t.ctrl = .halted ∧ t.halted = true ∧ t.haltCause = c ∧
          t.abortReason = .none) ∧
        (i.isInvalidAlu = false → (i.isLi = true → s.ip.toNat < 63) → i.haltCause = none →
          t.ctrl = .running ∧ t.halted = false ∧ t.haltCause = .none ∧ t.abortReason = .none))

/-- Every step of a running machine that does not abort counts exactly one cycle, whatever the word (R25, R187;
CYCLE_BITS is the parameter of D11). -/
def Obligations.EveryCompletedStepCountsOneCycle : Prop :=
  ∀ s t : State, s.ctrl = .running → s.halted = false → step s = .next t → t.ctrl ≠ .aborted →
    (s.cycleBits = none → t.cycleCount = s.cycleCount + 1) ∧
    (∀ b, s.cycleBits = some b → t.cycleCount = (s.cycleCount + 1) % 2 ^ b)

/-- The pointer never passes 64, and it is 64 only after a load immediate at 62 or a word at 63 that is neither a li
nor a jmp: a non-branch, or a conditional branch that was not taken, as a target is below 64 (R20, C2; the 7-bit
pointer is D6). -/
def Obligations.PointerReaches64OnlyAtTheEnd : Prop :=
  ∀ s t : State, s.ctrl = .running → s.halted = false → step s = .next t → t.ctrl ≠ .aborted →
    t.ip.toNat ≤ 64 ∧
    (t.ip.toNat = 64 →
      (s.ip.toNat = 62 ∧ (decode (s.rom.get 62)).isLi = true) ∨
      (s.ip.toNat = 63 ∧ (decode (s.rom.get 63)).isLi = false ∧ ∀ a, decode (s.rom.get 63) ≠ .jmp a))

/-! ## The register file, the ALU and the strobe -/

/-- R13: the banked read mux. -/
def Obligations.BankedReadSelectsTheRegister : Prop :=
  ∀ r : Regs,
    r.read .x 0 = r.x0 ∧ r.read .x 1 = r.x1 ∧ r.read .y 0 = r.y0 ∧ r.read .y 1 = r.y1

/-- R29: the strobe latches one and the same source into every register of the mask, any number of them, and leaves
the others; from the bus outside immediate mode, from one value in it. -/
def Obligations.StrobeLatchesTheMaskedRegisters : Prop :=
  ∀ (mask : BitVec 4) (s : State), s.aluOp.toNat < 6 →
    (s.immMode = false → ∃ t, writeEnable mask s = .ok t ∧
      ∀ i : BitVec 2, t.regs.get i = if mask.getLsbD i.toNat then s.bus else s.regs.get i) ∧
    (s.immMode = true → s.ip.toNat < 64 → ∃ v, ∀ m : BitVec 4, ∃ t, writeEnable m s = .ok t ∧
      ∀ i : BitVec 2, t.regs.get i = if m.getLsbD i.toNat then v else s.regs.get i)

/-- The strobe re-evaluates the ALU after it has latched, whatever the mask, and changes nothing but the registers,
hold, carry and zero; bus is not written (R30, R31; latch before evaluation is D23). -/
def Obligations.StrobeReevaluatesTheAlu : Prop :=
  ∀ (mask : BitVec 4) (s t : State) (op : AluOp), s.aluOp = aluCode op → writeEnable mask s = .ok t →
    t = { s with
      regs := t.regs
      hold := (aluFn op (t.regs.read .x s.bankX) (t.regs.read .y s.bankY)).1
      carry := (aluFn op (t.regs.read .x s.bankX) (t.regs.read .y s.bankY)).2
      zero := decide ((aluFn op (t.regs.read .x s.bankX) (t.regs.read .y s.bankY)).1 = 0) }

/-- The operation table of the ALU: add is the sum modulo 256 with carry exactly when it reaches 256; the bitwise
operations act on each bit and clear carry; the passes copy an operand and clear carry (R81, R93; the codes 1 to 5 are
D1). -/
def Obligations.AluOperationTable : Prop :=
  (∀ a b : Byte, (aluFn .add a b).1.toNat = (a.toNat + b.toNat) % 256 ∧
    ((aluFn .add a b).2 = true ↔ 256 ≤ a.toNat + b.toNat)) ∧
  (∀ (a b : Byte) (k : Nat), k < 8 →
    (aluFn .xor a b).1.getLsbD k = Bool.xor (a.getLsbD k) (b.getLsbD k) ∧
    (aluFn .and a b).1.getLsbD k = (a.getLsbD k && b.getLsbD k) ∧
    (aluFn .or a b).1.getLsbD k = (a.getLsbD k || b.getLsbD k) ∧
    (aluFn .passX a b).1.getLsbD k = a.getLsbD k ∧
    (aluFn .passY a b).1.getLsbD k = b.getLsbD k) ∧
  (∀ (op : AluOp) (a b : Byte), op ≠ .add → (aluFn op a b).2 = false) ∧
  (aluCode .add = 0 ∧ aluCode .xor = 1 ∧ aluCode .and = 2 ∧ aluCode .or = 3 ∧ aluCode .passX = 4 ∧
    aluCode .passY = 5)

/-! ## The ALU instructions -/

/-- add: the destination and the bus get the 8-bit sum; hold, carry and zero are those of a second addition, in which
the sum replaces the operand that is the destination, if one is (R84 to R86; the second evaluation sees the latched
value by D23). Nothing else changes. -/
def Obligations.AddWritesTheSumAndReevaluates : Prop :=
  ∀ (bx bY : BitVec 1) (d : BitVec 2) (s : State), s.immMode = false →
    ∀ a b a2 b2 : Byte, a = s.regs.read .x bx → b = s.regs.read .y bY →
      a2 = (if d = bx.setWidth 2 then a + b else a) →
      b2 = (if d = 2#2 + bY.setWidth 2 then a + b else b) →
      exec (.add bx bY d) s = .next { s with
        regs := s.regs.set d (a + b)
        bankX := bx
        bankY := bY
        aluOp := 0
        bus := a + b
        hold := a2 + b2
        carry := decide (256 ≤ a2.toNat + b2.toNat)
        zero := decide (a2 + b2 = 0) }

/-- xor: the destination and the bus get the exclusive or; hold and zero are those of the second evaluation, which is
the overwritten operand when the destination is one, else the result; carry is 0 (R84, R85, R87; code 1 is D1, the
second evaluation D23). Nothing else changes. -/
def Obligations.XorWritesAndReevaluates : Prop :=
  ∀ (bx bY : BitVec 1) (d : BitVec 2) (s : State), s.immMode = false →
    ∀ a b h : Byte, a = s.regs.read .x bx → b = s.regs.read .y bY →
      h = (if d = bx.setWidth 2 then a else if d = 2#2 + bY.setWidth 2 then b else a ^^^ b) →
      exec (.xor bx bY d) s = .next { s with
        regs := s.regs.set d (a ^^^ b)
        bankX := bx
        bankY := bY
        aluOp := 1
        bus := a ^^^ b
        hold := h
        carry := false
        zero := decide (h = 0) }

/-- and, or: destination, bus and hold get the result, whatever the destination; carry is 0 and zero is that of the
result (R84, R85, R88, R89; codes 2 and 3 are D1, the second evaluation D23). Nothing else changes. -/
def Obligations.AndOrWriteTheResult : Prop :=
  ∀ (bx bY : BitVec 1) (d : BitVec 2) (s : State), s.immMode = false →
    ∀ a b : Byte, a = s.regs.read .x bx → b = s.regs.read .y bY →
      exec (.and bx bY d) s = .next { s with
        regs := s.regs.set d (a &&& b), bankX := bx, bankY := bY, aluOp := 2, bus := a &&& b, hold := a &&& b
        carry := false, zero := decide (a &&& b = 0) } ∧
      exec (.or bx bY d) s = .next { s with
        regs := s.regs.set d (a ||| b), bankX := bx, bankY := bY, aluOp := 3, bus := a ||| b, hold := a ||| b
        carry := false, zero := decide (a ||| b = 0) }

/-- passx, passy: destination, bus and hold get the X or the Y operand, whatever the destination; carry is 0 and zero
is that of the operand; both selectors are set (R84, R85, R90, R91; codes 4 and 5 are D1, the second evaluation D23).
Nothing else changes. -/
def Obligations.PassWritesTheOperand : Prop :=
  ∀ (bx bY : BitVec 1) (d : BitVec 2) (s : State), s.immMode = false →
    ∀ a b : Byte, a = s.regs.read .x bx → b = s.regs.read .y bY →
      exec (.passx bx bY d) s = .next { s with
        regs := s.regs.set d a, bankX := bx, bankY := bY, aluOp := 4, bus := a, hold := a
        carry := false, zero := decide (a = 0) } ∧
      exec (.passy bx bY d) s = .next { s with
        regs := s.regs.set d b, bankX := bx, bankY := bY, aluOp := 5, bus := b, hold := b
        carry := false, zero := decide (b = 0) }

/-- Writing a register by index changes that register and no other: what the ALU statements' "regs" field means, at
all four indices (R11). -/
def Obligations.RegisterWriteThenRead : Prop :=
  ∀ (r : Regs) (d i : BitVec 2) (v : Byte),
    (r.set d v).get i = (if i = d then v else r.get i) ∧
    r.get 0 = r.x0 ∧ r.get 1 = r.x1 ∧ r.get 2 = r.y0 ∧ r.get 3 = r.y1

/-- The AluOp words with op 6 and 7 abort with ALU_OP whatever the registers hold, and keep the rom (R92, R142; the
abort is D8 and D9). Nothing is said of the datapath: it is unspecified. -/
def Obligations.InvalidAluOpsAbort : Prop :=
  ∀ (bx bY : BitVec 1) (d : BitVec 2) (s : State),
    (∃ t, exec (.aluOp6 bx bY d) s = .next t ∧ AbortedWith .aluOp t ∧ t.rom = s.rom) ∧
    (∃ t, exec (.aluOp7 bx bY d) s = .next t ∧ AbortedWith .aluOp t ∧ t.rom = s.rom)

/-! ## Control flow -/

/-- R100: the four conditional branches take the branch iff the selected flag XOR invert, to the absolute target;
else ip stays past the word. No branch changes any other field. -/
def Obligations.ConditionalBranchTakenIffFlagXorInvert : Prop :=
  ∀ (t : BitVec 6) (s : State),
    (exec (.jc t) s = .next (if Bool.xor s.carry false = true then { s with ip := BitVec.ofNat 7 t.toNat } else s)) ∧
    (exec (.jz t) s = .next (if Bool.xor s.zero false = true then { s with ip := BitVec.ofNat 7 t.toNat } else s)) ∧
    (exec (.jnc t) s = .next (if Bool.xor s.carry true = true then { s with ip := BitVec.ofNat 7 t.toNat } else s)) ∧
    (exec (.jnz t) s = .next (if Bool.xor s.zero true = true then { s with ip := BitVec.ofNat 7 t.toNat } else s))

/-- R105: jmp is the word 0x040 | t, and it overwrites ip with the absolute target; nothing else changes. -/
def Obligations.JmpOverwritesThePointer : Prop :=
  ∀ (t : BitVec 6) (s : State),
    exec (.jmp t) s = .next { s with ip := BitVec.ofNat 7 t.toNat } ∧
    (encode (.jmp t)).toNat = 64 + t.toNat ∧ decode (encode (.jmp t)) = .jmp t ∧
    (∀ w : Word, w &&& 0x1C0 = 0x040 → ∃ t', decode w = .jmp t')

/-! ## Load immediate -/

/-- li, with its payload inside the ROM: every register of the mask gets the payload's bits 7..0; hold, carry and zero
are those of the current operation on the current banks of the new registers; ip moves past the payload; bus, the
selectors, alu_op and everything else are kept (R120 to R122; dropping payload bit 8 is D5, the evaluation on the new
values is D23). -/
def Obligations.LiWritesTheMaskAndReevaluates : Prop :=
  ∀ (m : BitVec 4) (s : State) (op : AluOp) (p : Word), s.aluOp = aluCode op → s.rom.romRead s.ip.toNat = some p →
    ∀ r : Regs, r = s.regs.latch m (BitVec.ofNat 8 p.toNat) →
      exec (.li m) s = .next { s with
        regs := r
        hold := (aluFn op (r.read .x s.bankX) (r.read .y s.bankY)).1
        carry := (aluFn op (r.read .x s.bankX) (r.read .y s.bankY)).2
        zero := decide ((aluFn op (r.read .x s.bankX) (r.read .y s.bankY)).1 = 0)
        immMode := false
        ip := s.ip + 1 } ∧
      ∀ i : BitVec 2, r.get i = if m.getLsbD i.toNat then BitVec.ofNat 8 p.toNat else s.regs.get i

/-- A step that runs a li at address a leaves ip = a + 2, and no register outside its mask changes (R121, R122). -/
def Obligations.LiStepSkipsItsPayload : Prop :=
  ∀ (s t : State) (m : BitVec 4), AtBoundary s → s.ctrl = .running → s.ip.toNat < 63 →
    decode (s.rom.get s.ip.toNat) = .li m → step s = .next t →
    t.ip.toNat = s.ip.toNat + 2 ∧ t.ctrl = .running ∧ t.bus = s.bus ∧
    ∀ i : BitVec 2, t.regs.get i =
      if m.getLsbD i.toNat then BitVec.ofNat 8 (s.rom.get (s.ip.toNat + 1)).toNat else s.regs.get i

/-- li with mask 0 writes no register but refreshes hold, carry and zero from the current registers (R31, R123; D23). -/
def Obligations.LiWithEmptyMaskRefreshesTheFlags : Prop :=
  ∀ (s : State) (op : AluOp), s.aluOp = aluCode op → s.ip.toNat < 64 →
    exec (.li 0) s = .next { s with
      hold := (aluFn op (s.regs.read .x s.bankX) (s.regs.read .y s.bankY)).1
      carry := (aluFn op (s.regs.read .x s.bankX) (s.regs.read .y s.bankY)).2
      zero := decide ((aluFn op (s.regs.read .x s.bankX) (s.regs.read .y s.bankY)).1 = 0)
      immMode := false
      ip := s.ip + 1 }

/-- li whose payload would be at 64 aborts with IMM_RANGE and keeps the rom (R43, R120, R142; D7, D8). -/
def Obligations.LiOutsideTheRomAborts : Prop :=
  ∀ (m : BitVec 4) (s : State), 64 ≤ s.ip.toNat →
    ∃ t, exec (.li m) s = .next t ∧ AbortedWith .immRange t ∧ t.rom = s.rom

/-! ## No-operand instructions and the reserved class -/

/-- halt, for either value of the ignored bit, enters Halted with cause HALT and changes nothing else (R130; the cause
is D10, the ignored bit D20). -/
def Obligations.HaltEntersHalted : Prop :=
  ∀ (g : BitVec 1) (s : State),
    exec (.halt g) s = .next { s with halted := true, haltCause := .halt, ctrl := .halted }

/-- clc, for either value of the ignored bit, clears carry and changes nothing else (R131; the ignored bit is D20). -/
def Obligations.ClcClearsCarryOnly : Prop :=
  ∀ (g : BitVec 1) (s : State), exec (.clc g) s = .next { s with carry := false }

/-- The Reserved class and the invalid no-operand selectors fault-halt with their causes and change nothing else
(R132, R133, R141; the causes are D10). -/
def Obligations.InvalidWordsFaultHalt : Prop :=
  ∀ (g5 : BitVec 5) (g : BitVec 1) (sel : BitVec 3) (s : State),
    exec (.reserved g5) s = .next { s with halted := true, haltCause := .faultReserved, ctrl := .halted } ∧
    exec (.noopInvalid23 g sel) s = .next { s with halted := true, haltCause := .faultNoop, ctrl := .halted } ∧
    exec (.noopInvalid47 g sel) s = .next { s with halted := true, haltCause := .faultNoop, ctrl := .halted }

/-! ## What no instruction does -/

/-- Only the host's load writes the rom: no instruction does, no step does (the abort of a fetch outside the ROM among
them, which no instruction runs), and no reset, run or read. Every cell reads as before, and the list of cells is the
same (R42, R142; the interface is D16, log 19). -/
def Obligations.NoInstructionWritesTheRom : Prop :=
  ∀ s t : State,
    (∀ i : Instr, exec i s = .next t → t.rom = s.rom ∧ ∀ a, t.rom.romRead a = s.rom.romRead a) ∧
    (step s = .next t → t.rom = s.rom ∧ ∀ a, t.rom.romRead a = s.rom.romRead a) ∧
    (∀ op : HostOp, (∀ b, op ≠ .load b) → applyHost op s = .next t →
      t.rom = s.rom ∧ ∀ a, t.rom.romRead a = s.rom.romRead a)

/-- An instruction that does not abort changes no register but its destinations (R11): the d of an ALU instruction, the
mask of a li. -/
def Obligations.RegistersChangeOnlyAtTheDestinations : Prop :=
  ∀ (i : Instr) (s t : State), exec i s = .next t → t.ctrl ≠ .aborted →
    ∀ r : BitVec 2, i.dests.getLsbD r.toNat = false → t.regs.get r = s.regs.get r

/-- Only the ALU instructions write bank_x, bank_y, alu_op and bus (R14, R15, R18). -/
def Obligations.OnlyAluInstructionsWriteSelectorsAndBus : Prop :=
  ∀ (i : Instr) (s t : State), exec i s = .next t → t.ctrl ≠ .aborted → i.isAlu = false →
    t.bankX = s.bankX ∧ t.bankY = s.bankY ∧ t.aluOp = s.aluOp ∧ t.bus = s.bus

/-- zero and hold are written only by ALU instructions and li, carry by these and clc (R16, R17, R19). -/
def Obligations.FlagsHaveOnlyTheirNamedWriters : Prop :=
  ∀ (i : Instr) (s t : State), exec i s = .next t → t.ctrl ≠ .aborted → i.isAlu = false → i.isLi = false →
    t.zero = s.zero ∧ t.hold = s.hold ∧ (i.isClc = false → t.carry = s.carry)

/-- Every instruction that does not abort keeps "zero says whether hold is 0", which reset establishes: zero and hold
are only ever written together, by an ALU evaluation (R17, R19, R82). -/
def Obligations.ZeroAlwaysDescribesHold : Prop :=
  ∀ (i : Instr) (s t : State), exec i s = .next t → t.ctrl ≠ .aborted →
    s.zero = decide (s.hold = 0) → t.zero = decide (t.hold = 0)

/-! ## Reset, load and run -/

/-- Reset from any state leaves the table of R34: every field at its reset value, rom kept. The parameter CYCLE_BITS
and the model's free-value counter are kept too (R34, R172; logs 2 and 3; the order inside the strobe is D23). So the
reset of the machine before its first reset is State.reset (logs 6 and 8). -/
def Obligations.ResetLeavesTheResetTable : Prop :=
  (hostReset State.powerOn = State.reset) ∧
  ∀ s : State, hostReset s =
    { regs := ⟨0, 0, 0, 0⟩, bankX := 0, bankY := 0, aluOp := 0, carry := false, zero := true, bus := 0, hold := 0
      ip := 0, halted := false, haltCause := .none, abortReason := .none, ctrl := .running, cycleCount := 0
      immMode := false, rom := s.rom, cycleBits := s.cycleBits, freeIndex := s.freeIndex }

/-- R47: a load that is allowed never fails, whatever the bytes, and changes no field other than rom. -/
def Obligations.LoadChangesOnlyTheRom : Prop :=
  ∀ (b : List Byte) (s : State), s.ctrl ≠ .running →
    ∃ m : Memory, hostLoad b s = .next { s with rom := m }

/-- What a load leaves in each cell: bits 8..0 of the image's two little-endian bytes, 0 where the image does not
complete the cell, in canonical form; a load while Running is refused (R44 to R46, R48; D2, D3, D4, D14). -/
def Obligations.LoadFillsEveryCell : Prop :=
  ∀ (b : List Byte) (s : State),
    (s.ctrl ≠ .running → ∃ t, hostLoad b s = .next t ∧ t.rom.wf = true ∧
      ∀ k, k < 64 → (t.rom.get k).toNat =
        if 2 * k + 1 < b.length then ((b.getD (2 * k) 0).toNat + 256 * (b.getD (2 * k + 1) 0).toNat) % 512 else 0) ∧
    (s.ctrl = .running → hostLoad b s = .refused .loadWhileRunning)

/-- Two ROMs in canonical form that read alike are the same data (the form is the model's own, log 7). -/
def Obligations.CanonicalRomsThatReadAlikeAreEqual : Prop :=
  ∀ m m' : Memory, m.wf = true → m'.wf = true → (∀ a, a < 64 → m.romRead a = m'.romRead a) → m = m'

/-- A run under fuel always answers, outside PreReset: with the result of R178 exactly when it stands in Halted, the
reason when in Aborted, and none while Running (R177 to R179; D16, D21). -/
def Obligations.RunReportsItsEnd : Prop :=
  ∀ (n : Nat) (s : State), s.ctrl ≠ .preReset →
    ∃ t, runLoop n s = .next t ∧ t.ctrl ≠ .preReset ∧
      (t.ctrl = .halted → hostRun n s = .next (t, some (.halted t.regs.x0 t.cycleCount t.haltCause))) ∧
      (t.ctrl = .aborted → hostRun n s = .next (t, some (.aborted t.abortReason))) ∧
      (t.ctrl = .running → hostRun n s = .next (t, none))

/-- With the default, unbounded counter, cycle_count grows by the number of words a run fetches. A run of n steps that
is still Running has fetched n words: each shorter run stands where the next step fetches inside the ROM. A run that
has halted has fetched k words, where k is the number of steps it made: the run of k steps is the halted state already,
and each shorter one stands where the next step fetches inside the ROM, so the halting word is the k-th (R150, R187;
the default is D11, log 3, the fuel D21, log 19). -/
def Obligations.RunCountsTheWordsFetched : Prop :=
  ∀ (n : Nat) (s t : State), s.cycleBits = none → s.ctrl = .running → s.halted = false → runLoop n s = .next t →
    (t.ctrl = .running → t.cycleCount = s.cycleCount + n ∧
      ∀ j, j < n → ∃ u, runLoop j s = .next u ∧ ReadyToFetch u) ∧
    (t.ctrl = .halted → ∃ k, 1 ≤ k ∧ k ≤ n ∧ t.cycleCount = s.cycleCount + k ∧ runLoop k s = .next t ∧
      ∀ j, j < k → ∃ u, runLoop j s = .next u ∧ ReadyToFetch u)

/-- A run after reset depends only on the rom (and the parameter CYCLE_BITS): from any two states with the same rom,
reset and run as long, it stands in the same controller state, with the same snapshot unless it has aborted, and the
same reason if it has (R173; reset from any state, D24, log 19; CYCLE_BITS and freeIndex are logs 3 and 2). What the
snapshot holds is ReadStateReturnsEveryField. -/
def Obligations.RunAfterResetDependsOnlyOnTheRom : Prop :=
  ∀ (n : Nat) (s s' t t' : State), s.rom = s'.rom → s.cycleBits = s'.cycleBits →
    runLoop n (hostReset s) = .next t → runLoop n (hostReset s') = .next t' →
    t.ctrl = t'.ctrl ∧ t.abortReason = t'.abortReason ∧ (t.ctrl ≠ .aborted → hostRead t = hostRead t')

/-- R173's round trip: run to halt, reset, run to halt again, and the final snapshot, cycle count included, is the
same, however much fuel each run had (D21, log 19). What the snapshot holds is ReadStateReturnsEveryField. -/
def Obligations.ResetAndRunAgainGivesTheSameEnd : Prop :=
  ∀ (n k : Nat) (s t u : State), runLoop n (hostReset s) = .next t → t.ctrl = .halted →
    runLoop k (hostReset t) = .next u → u.ctrl = .halted → hostRead u = hostRead t

/-- The trace record of a cycle: address, word, class, mnemonic, and the snapshot after it, or the abort reason in its
place; a fetch outside the ROM determines no word (R153; D17, D7). What the snapshot holds is
ReadStateReturnsEveryField. -/
def Obligations.TraceRecordsTheCycle : Prop :=
  ∀ s t : State, s.ctrl = .running → s.halted = false → step s = .next t →
    (s.ip.toNat < 64 → hostStep s = .next (t, .traced
      { fetchAddr := s.ip
        word := some (s.rom.get s.ip.toNat)
        cls := some (classify (s.rom.get s.ip.toNat))
        mnemonic := some (decode (s.rom.get s.ip.toNat)).mnemonic
        ending := if t.ctrl = .aborted then .aborted t.abortReason else .after (hostRead t) })) ∧
    (64 ≤ s.ip.toNat → hostStep s = .next (t, .traced
      { fetchAddr := s.ip, word := none, cls := none, mnemonic := none, ending := .aborted .fetchRange }))

/-- The pseudo-instruction nop, in its place, is a step that changes ip and cycle_count only; mov copies a register of
either bank; clr, its two words in the next two cells, is a step that zeroes the registers of its mask, re-evaluates
the ALU on the new registers as li does, and moves ip past both words (R76; the pseudo-instructions are D15, log 20,
the evaluation on the new values is D23, log 13). -/
def Obligations.PseudoInstructionsDoWhatTheySay : Prop :=
  (∀ (s : State) (a : BitVec 6) (w : Word), ReadyToFetch s → a.toNat = s.ip.toNat → (AsmLine.nop a).words = some [w] →
    s.rom.romRead s.ip.toNat = some w → step s = .next (advance s)) ∧
  (∀ (s : State) (rd : BitVec 2) (sel : BitVec 1) (w : Word), s.immMode = false →
    ((AsmLine.movX rd sel).words = some [w] → ∃ t, exec (decode w) s = .next t ∧
      t.regs = s.regs.set rd (s.regs.read .x sel) ∧ t.bankY = 0) ∧
    ((AsmLine.movY rd sel).words = some [w] → ∃ t, exec (decode w) s = .next t ∧
      t.regs = s.regs.set rd (s.regs.read .y sel) ∧ t.bankX = 0)) ∧
  (∀ (s : State) (m : BitVec 4) (w v : Word) (op : AluOp), ReadyToFetch s → s.ip.toNat < 63 →
    s.aluOp = aluCode op → (AsmLine.clr m).words = some [w, v] →
    s.rom.romRead s.ip.toNat = some w → s.rom.romRead (s.ip.toNat + 1) = some v →
    ∀ r : Regs, r = s.regs.latch m 0 →
      step s = .next { advance s with
        regs := r
        hold := (aluFn op (r.read .x s.bankX) (r.read .y s.bankY)).1
        carry := (aluFn op (r.read .x s.bankX) (r.read .y s.bankY)).2
        zero := decide ((aluFn op (r.read .x s.bankX) (r.read .y s.bankY)).1 = 0)
        immMode := false
        ip := s.ip + 2 } ∧
      ∀ i : BitVec 2, r.get i = if m.getLsbD i.toNat then 0 else s.regs.get i)

/-! ## The invariant of a cycle boundary -/

/-- A step keeps the invariant of a cycle boundary, from every state that meets it: a canonical ROM, the agreement of
halted, halt_cause and abort_reason with ctrl, imm_mode = 0, cycle_count in CYCLE_BITS, alu_op in 0..5 and ip in 0..64
(R15, R20, R23, R25, R26; D6, D8, D10, D19). -/
def Obligations.StepKeepsTheBoundaryInvariant : Prop :=
  ∀ s t : State, AtBoundary s → step s = .next t → AtBoundary t

/-- The state after reset meets the invariant, and so does the state before the first reset, and any state once it is
reset, if its rom is canonical. Before the first reset the invariant asserts nothing but the canonical rom: R23 and R26
are not asserted in PreReset (log 6), and that rom is empty (R171 with D13; log 7). -/
def Obligations.ResetMeetsTheBoundaryInvariant : Prop :=
  AtBoundary State.reset ∧ AtBoundary State.powerOn ∧ ∀ s : State, s.rom.wf = true → AtBoundary (hostReset s)

/-- Every operation of the host keeps the invariant, a load of any bytes and a run of any length among them (R179). -/
def Obligations.HostOperationsKeepTheBoundaryInvariant : Prop :=
  ∀ (op : HostOp) (s t : State), AtBoundary s → applyHost op s = .next t → AtBoundary t

/-- "Read current state" returns every field of R10 except imm_mode, rom included, each as the state holds it, and the
operation leaves the state as it is (R32; leaving out imm_mode is D22, the interface D16, log 19). -/
def Obligations.ReadStateReturnsEveryField : Prop :=
  ∀ s : State, applyHost .readState s = .next s ∧
    hostRead s =
      { regs := ⟨s.regs.x0, s.regs.x1, s.regs.y0, s.regs.y1⟩
        bankX := s.bankX, bankY := s.bankY, aluOp := s.aluOp
        carry := s.carry, zero := s.zero, bus := s.bus, hold := s.hold, ip := s.ip
        halted := s.halted, haltCause := s.haltCause, abortReason := s.abortReason, ctrl := s.ctrl
        cycleCount := s.cycleCount, rom := s.rom } ∧
    ∀ s' : State, hostRead s' = hostRead s →
      s' = { s with immMode := s'.immMode, cycleBits := s'.cycleBits, freeIndex := s'.freeIndex }
end

