-- ==== Sys2Proof/Laws/Memory.lean ====
section
/-! SUPPORT. The ROM: reads after writes, the canonical form, that every memory operation keeps it, and that it is
canonical (20_memory.md R41 to R46; log 7). -/

namespace Sys2Proof.Machine

@[simp] theorem Memory.get_nil (k : Nat) : Memory.get [] k = Memory.unlisted := rfl

theorem Memory.wfFrom_cons {lo a : Nat} {v : Word} {m : Memory} :
    Memory.wfFrom lo ((a, v) :: m) = true ↔
      lo ≤ a ∧ a < 64 ∧ v ≠ Memory.unlisted ∧ Memory.wfFrom (a + 1) m = true := by
  simp [Memory.wfFrom, and_assoc]

theorem Memory.wfFrom_mono {lo lo' : Nat} {m : Memory} (h : lo' ≤ lo) (hm : Memory.wfFrom lo m = true) :
    Memory.wfFrom lo' m = true := by
  cases m with
  | nil => rfl
  | cons c m =>
    obtain ⟨a, v⟩ := c
    rw [Memory.wfFrom_cons] at hm ⊢
    exact ⟨h.trans hm.1, hm.2⟩

/-- A canonical list reads as unlisted below its first possible address. -/
theorem Memory.get_below {lo k : Nat} {m : Memory} (hm : Memory.wfFrom lo m = true) (hk : k < lo) :
    m.get k = Memory.unlisted := by
  induction m generalizing lo with
  | nil => rfl
  | cons c m ih =>
    obtain ⟨a, v⟩ := c
    rw [Memory.wfFrom_cons] at hm
    have hne : a ≠ k := by omega
    simp only [Memory.get, if_neg hne]
    exact ih hm.2.2.2 (by omega)

theorem Memory.get_cons {k : Nat} {m : Memory} (a : Nat) (v : Word) (hm : Memory.wfFrom (a + 1) m = true) :
    (Memory.cons a v m).get k = if k = a then v else m.get k := by
  unfold Memory.cons
  by_cases hv : v = Memory.unlisted
  · rw [if_pos hv]
    by_cases hk : k = a
    · rw [if_pos hk, hk, hv, Memory.get_below hm (by omega)]
    · rw [if_neg hk]
  · rw [if_neg hv]
    simp only [Memory.get, eq_comm]

theorem Memory.wfFrom_cons' {lo a : Nat} {v : Word} {m : Memory} (h : lo ≤ a) (ha : a < 64)
    (hm : Memory.wfFrom (a + 1) m = true) : Memory.wfFrom lo (Memory.cons a v m) = true := by
  unfold Memory.cons
  split
  · exact Memory.wfFrom_mono (by omega) hm
  · next hv => exact Memory.wfFrom_cons.2 ⟨h, ha, hv, hm⟩

/-- A write inside the ROM keeps the canonical form. -/
theorem Memory.wfFrom_set {lo k : Nat} {m : Memory} (v : Word) (hm : Memory.wfFrom lo m = true) (hk : k < 64)
    (hlo : lo ≤ k) : Memory.wfFrom lo (m.set k v) = true := by
  induction m generalizing lo with
  | nil => exact Memory.wfFrom_cons' hlo hk rfl
  | cons c m ih =>
    obtain ⟨a, w⟩ := c
    have h := Memory.wfFrom_cons.1 hm
    unfold Memory.set
    split
    · next hka =>
      exact Memory.wfFrom_cons' hlo hk (Memory.wfFrom_cons.2 ⟨by omega, h.2⟩)
    · split
      · next hka => subst hka; exact Memory.wfFrom_cons' hlo hk h.2.2.2
      · exact Memory.wfFrom_cons.2 ⟨h.1, h.2.1, h.2.2.1, ih h.2.2.2 (by omega)⟩

theorem Memory.wf_set {k : Nat} {m : Memory} (v : Word) (hm : m.wf = true) (hk : k < 64) :
    (m.set k v).wf = true :=
  Memory.wfFrom_set v hm hk (Nat.zero_le k)

/-- Read after write: the written cell holds the value, every other cell what it held. -/
theorem Memory.get_set_from {lo : Nat} {m : Memory} (k j : Nat) (v : Word) (hm : Memory.wfFrom lo m = true) :
    (m.set k v).get j = if j = k then v else m.get j := by
  induction m generalizing lo with
  | nil => exact Memory.get_cons (m := []) k v rfl
  | cons c m ih =>
    obtain ⟨a, w⟩ := c
    have h := Memory.wfFrom_cons.1 hm
    unfold Memory.set
    split
    · next hka =>
      exact Memory.get_cons k v (Memory.wfFrom_cons.2 ⟨by omega, h.2⟩)
    · split
      · next hka =>
        subst hka
        rw [Memory.get_cons k v h.2.2.2]
        by_cases hj : j = k
        · rw [if_pos hj, if_pos hj]
        · rw [if_neg hj, if_neg hj]
          simp only [Memory.get, if_neg (Ne.symm hj)]
      · next hlt hne =>
        simp only [Memory.get]
        by_cases haj : a = j
        · have hjk : j ≠ k := by omega
          rw [if_pos haj, if_neg hjk, if_pos haj]
        · rw [if_neg haj, if_neg haj]
          exact ih h.2.2.2

/-- The cells of a tabulated ROM, and that it is canonical. -/
theorem Memory.tabulate_spec (cell : Nat → Word) (a n : Nat) (h : a + n ≤ 64) :
    Memory.wfFrom a (Memory.tabulate cell a n) = true ∧
      ∀ k, (Memory.tabulate cell a n).get k = if a ≤ k ∧ k < a + n then cell k else Memory.unlisted := by
  induction n generalizing a with
  | zero =>
    refine ⟨rfl, fun k => ?_⟩
    have hk : ¬(a ≤ k ∧ k < a + 0) := by omega
    rw [if_neg hk]
    rfl
  | succ n ih =>
    obtain ⟨hw, hg⟩ := ih (a + 1) (by omega)
    refine ⟨Memory.wfFrom_cons' le_rfl (by omega) hw, fun k => ?_⟩
    rw [Memory.tabulate, Memory.get_cons a (cell a) hw, hg]
    by_cases hk : k = a
    · subst hk
      have : k ≤ k ∧ k < k + (n + 1) := by omega
      rw [if_pos rfl, if_pos this]
    · rw [if_neg hk]
      by_cases hr : a + 1 ≤ k ∧ k < a + 1 + n
      · have : a ≤ k ∧ k < a + (n + 1) := by omega
        rw [if_pos hr, if_pos this]
      · have : ¬(a ≤ k ∧ k < a + (n + 1)) := by omega
        rw [if_neg hr, if_neg this]

/-- What a load leaves is canonical. -/
theorem loadRom_wf (b : List Byte) : (loadRom b).wf = true :=
  (Memory.tabulate_spec (imageCell b) 0 64 (by omega)).1

theorem loadRom_get (b : List Byte) {k : Nat} (hk : k < 64) : (loadRom b).get k = imageCell b k := by
  have h := (Memory.tabulate_spec (imageCell b) 0 64 (by omega)).2 k
  have hk' : 0 ≤ k ∧ k < 0 + 64 := by omega
  rw [if_pos hk'] at h
  exact h

/-- Placing an instruction inside the ROM keeps the canonical form. -/
theorem placeCells_wf {m : Memory} (hm : m.wf = true) {a : Nat} (ha : a < 64) (nbits w : Nat) :
    (placeCells m a nbits w).wf = true := by
  unfold placeCells
  split
  · next h => exact Memory.wf_set _ (Memory.wf_set _ hm ha) h
  · exact Memory.wf_set _ hm ha

/-- A read of the ROM answers exactly inside it. -/
theorem Memory.romRead_eq_some {m : Memory} {a : Nat} {w : Word} :
    m.romRead a = some w ↔ a < 64 ∧ m.get a = w := by
  unfold Memory.romRead
  split <;> simp_all

theorem Memory.romRead_eq_none {m : Memory} {a : Nat} : m.romRead a = none ↔ 64 ≤ a := by
  unfold Memory.romRead
  split <;> simp <;> omega

end Sys2Proof.Machine
end

