-- ==== Sys2Proof/Laws/Operands.lean ====
section
/-! SUPPORT. The register file: what reading by index, by bank and latching through a mask say (10_state.md R11 to
R13, R29, R84). -/

namespace Sys2Proof.Machine

/-- A two-bit index is one of the four register names. -/
theorem regIndex_cases (i : BitVec 2) : i = 0 ∨ i = 1 ∨ i = 2 ∨ i = 3 := by
  revert i; decide

@[simp] theorem Regs.get_set_self (r : Regs) (i : BitVec 2) (v : Byte) : (r.set i v).get i = v := by
  rcases regIndex_cases i with h | h | h | h <;> subst h <;> rfl

theorem Regs.get_set_of_ne (r : Regs) {i j : BitVec 2} (v : Byte) (h : j ≠ i) :
    (r.set i v).get j = r.get j := by
  rcases regIndex_cases i with hi | hi | hi | hi <;> rcases regIndex_cases j with hj | hj | hj | hj <;>
    subst hi <;> subst hj <;> first | rfl | exact absurd rfl h

theorem Regs.get_set (r : Regs) (i j : BitVec 2) (v : Byte) :
    (r.set i v).get j = if j = i then v else r.get j := by
  by_cases h : j = i
  · subst h; simp
  · simp [h, Regs.get_set_of_ne r v h]

/-- Two register files that read alike are equal. -/
theorem Regs.ext_get {r t : Regs} (h : ∀ i, r.get i = t.get i) : r = t := by
  obtain ⟨a, b, c, d⟩ := r
  obtain ⟨a', b', c', d'⟩ := t
  have h0 := h 0
  have h1 := h 1
  have h2 := h 2
  have h3 := h 3
  simp_all [Regs.get]

/-- Each register whose mask bit is set holds the value, each other one what it held. -/
theorem Regs.get_latch (r : Regs) (mask : BitVec 4) (v : Byte) (i : BitVec 2) :
    (r.latch mask v).get i = if mask.getLsbD i.toNat then v else r.get i := by
  rcases regIndex_cases i with h | h | h | h <;> subst h <;> rfl

theorem destMask_getLsbD (d i : BitVec 2) : (destMask d).getLsbD i.toNat = decide (i = d) := by
  revert d i; decide

/-- The strobe of an ALU instruction writes its one destination. -/
theorem Regs.latch_destMask (r : Regs) (d : BitVec 2) (v : Byte) : r.latch (destMask d) v = r.set d v := by
  apply Regs.ext_get
  intro i
  rw [Regs.get_latch, destMask_getLsbD, Regs.get_set]
  simp

@[simp] theorem Regs.latch_zero (r : Regs) (v : Byte) : r.latch 0 v = r := rfl

@[simp] theorem Bank.index_x (s : BitVec 1) : Bank.x.index s = s.setWidth 2 := rfl
@[simp] theorem Bank.index_y (s : BitVec 1) : Bank.y.index s = 2#2 + s.setWidth 2 := rfl

/-- The X and the Y operand are two different registers. -/
theorem Bank.index_x_ne_y (s t : BitVec 1) : Bank.x.index s ≠ Bank.y.index t := by
  revert s t; decide

/-- The X operand after one register is written: the value if it is that operand, else as before. -/
theorem Regs.read_x_set (r : Regs) (d : BitVec 2) (v : Byte) (s : BitVec 1) :
    (r.set d v).read .x s = if d = s.setWidth 2 then v else r.read .x s := by
  unfold Regs.read
  rw [Regs.get_set, Bank.index_x]
  by_cases h : d = s.setWidth 2 <;> simp [h, eq_comm]

/-- The Y operand after one register is written: the value if it is that operand, else as before. -/
theorem Regs.read_y_set (r : Regs) (d : BitVec 2) (v : Byte) (s : BitVec 1) :
    (r.set d v).read .y s = if d = 2#2 + s.setWidth 2 then v else r.read .y s := by
  unfold Regs.read
  rw [Regs.get_set, Bank.index_y]
  by_cases h : d = 2#2 + s.setWidth 2 <;> simp [h, eq_comm]

theorem targetIp_toNat (t : BitVec 6) : (targetIp t).toNat = t.toNat := by
  have := t.isLt
  simp [targetIp]
  omega

end Sys2Proof.Machine
end

