-- ==== Sys2Proof/Laws/State.lean ====
section
/-! SUPPORT. One lemma per field for each shared update of State, all true by rfl, so that no proof unfolds a record
update again. -/

namespace Sys2Proof.Machine

@[simp] theorem advance_regs (s : State) : (advance s).regs = s.regs := rfl
@[simp] theorem advance_bankX (s : State) : (advance s).bankX = s.bankX := rfl
@[simp] theorem advance_bankY (s : State) : (advance s).bankY = s.bankY := rfl
@[simp] theorem advance_aluOp (s : State) : (advance s).aluOp = s.aluOp := rfl
@[simp] theorem advance_carry (s : State) : (advance s).carry = s.carry := rfl
@[simp] theorem advance_zero (s : State) : (advance s).zero = s.zero := rfl
@[simp] theorem advance_bus (s : State) : (advance s).bus = s.bus := rfl
@[simp] theorem advance_hold (s : State) : (advance s).hold = s.hold := rfl
@[simp] theorem advance_ip (s : State) : (advance s).ip = s.ip + 1 := rfl
@[simp] theorem advance_halted (s : State) : (advance s).halted = s.halted := rfl
@[simp] theorem advance_haltCause (s : State) : (advance s).haltCause = s.haltCause := rfl
@[simp] theorem advance_abortReason (s : State) : (advance s).abortReason = s.abortReason := rfl
@[simp] theorem advance_ctrl (s : State) : (advance s).ctrl = s.ctrl := rfl
@[simp] theorem advance_cycleCount (s : State) : (advance s).cycleCount = nextCycle s.cycleBits s.cycleCount := rfl
@[simp] theorem advance_immMode (s : State) : (advance s).immMode = s.immMode := rfl
@[simp] theorem advance_rom (s : State) : (advance s).rom = s.rom := rfl
@[simp] theorem advance_cycleBits (s : State) : (advance s).cycleBits = s.cycleBits := rfl
@[simp] theorem advance_freeIndex (s : State) : (advance s).freeIndex = s.freeIndex := rfl

@[simp] theorem haltWith_regs (c : HaltCause) (s : State) : (haltWith c s).regs = s.regs := rfl
@[simp] theorem haltWith_bankX (c : HaltCause) (s : State) : (haltWith c s).bankX = s.bankX := rfl
@[simp] theorem haltWith_bankY (c : HaltCause) (s : State) : (haltWith c s).bankY = s.bankY := rfl
@[simp] theorem haltWith_aluOp (c : HaltCause) (s : State) : (haltWith c s).aluOp = s.aluOp := rfl
@[simp] theorem haltWith_carry (c : HaltCause) (s : State) : (haltWith c s).carry = s.carry := rfl
@[simp] theorem haltWith_zero (c : HaltCause) (s : State) : (haltWith c s).zero = s.zero := rfl
@[simp] theorem haltWith_bus (c : HaltCause) (s : State) : (haltWith c s).bus = s.bus := rfl
@[simp] theorem haltWith_hold (c : HaltCause) (s : State) : (haltWith c s).hold = s.hold := rfl
@[simp] theorem haltWith_ip (c : HaltCause) (s : State) : (haltWith c s).ip = s.ip := rfl
@[simp] theorem haltWith_halted (c : HaltCause) (s : State) : (haltWith c s).halted = true := rfl
@[simp] theorem haltWith_haltCause (c : HaltCause) (s : State) : (haltWith c s).haltCause = c := rfl
@[simp] theorem haltWith_abortReason (c : HaltCause) (s : State) : (haltWith c s).abortReason = s.abortReason := rfl
@[simp] theorem haltWith_ctrl (c : HaltCause) (s : State) : (haltWith c s).ctrl = .halted := rfl
@[simp] theorem haltWith_cycleCount (c : HaltCause) (s : State) : (haltWith c s).cycleCount = s.cycleCount := rfl
@[simp] theorem haltWith_immMode (c : HaltCause) (s : State) : (haltWith c s).immMode = s.immMode := rfl
@[simp] theorem haltWith_rom (c : HaltCause) (s : State) : (haltWith c s).rom = s.rom := rfl
@[simp] theorem haltWith_cycleBits (c : HaltCause) (s : State) : (haltWith c s).cycleBits = s.cycleBits := rfl
@[simp] theorem haltWith_freeIndex (c : HaltCause) (s : State) : (haltWith c s).freeIndex = s.freeIndex := rfl

@[simp] theorem branchTo_regs (t : BitVec 6) (s : State) : (branchTo t s).regs = s.regs := rfl
@[simp] theorem branchTo_bankX (t : BitVec 6) (s : State) : (branchTo t s).bankX = s.bankX := rfl
@[simp] theorem branchTo_bankY (t : BitVec 6) (s : State) : (branchTo t s).bankY = s.bankY := rfl
@[simp] theorem branchTo_aluOp (t : BitVec 6) (s : State) : (branchTo t s).aluOp = s.aluOp := rfl
@[simp] theorem branchTo_carry (t : BitVec 6) (s : State) : (branchTo t s).carry = s.carry := rfl
@[simp] theorem branchTo_zero (t : BitVec 6) (s : State) : (branchTo t s).zero = s.zero := rfl
@[simp] theorem branchTo_bus (t : BitVec 6) (s : State) : (branchTo t s).bus = s.bus := rfl
@[simp] theorem branchTo_hold (t : BitVec 6) (s : State) : (branchTo t s).hold = s.hold := rfl
@[simp] theorem branchTo_ip (t : BitVec 6) (s : State) : (branchTo t s).ip = targetIp t := rfl
@[simp] theorem branchTo_halted (t : BitVec 6) (s : State) : (branchTo t s).halted = s.halted := rfl
@[simp] theorem branchTo_haltCause (t : BitVec 6) (s : State) : (branchTo t s).haltCause = s.haltCause := rfl
@[simp] theorem branchTo_abortReason (t : BitVec 6) (s : State) : (branchTo t s).abortReason = s.abortReason := rfl
@[simp] theorem branchTo_ctrl (t : BitVec 6) (s : State) : (branchTo t s).ctrl = s.ctrl := rfl
@[simp] theorem branchTo_cycleCount (t : BitVec 6) (s : State) : (branchTo t s).cycleCount = s.cycleCount := rfl
@[simp] theorem branchTo_immMode (t : BitVec 6) (s : State) : (branchTo t s).immMode = s.immMode := rfl
@[simp] theorem branchTo_rom (t : BitVec 6) (s : State) : (branchTo t s).rom = s.rom := rfl
@[simp] theorem branchTo_cycleBits (t : BitVec 6) (s : State) : (branchTo t s).cycleBits = s.cycleBits := rfl
@[simp] theorem branchTo_freeIndex (t : BitVec 6) (s : State) : (branchTo t s).freeIndex = s.freeIndex := rfl

@[simp] theorem abort_halted (w : AbortReason) (s : State) : (abort w s).halted = false := rfl
@[simp] theorem abort_haltCause (w : AbortReason) (s : State) : (abort w s).haltCause = .none := rfl
@[simp] theorem abort_abortReason (w : AbortReason) (s : State) : (abort w s).abortReason = w := rfl
@[simp] theorem abort_ctrl (w : AbortReason) (s : State) : (abort w s).ctrl = .aborted := rfl
@[simp] theorem abort_cycleCount (w : AbortReason) (s : State) : (abort w s).cycleCount = wrapCycle s.cycleBits (Config.freeCycleCount s.freeIndex) := rfl
@[simp] theorem abort_immMode (w : AbortReason) (s : State) : (abort w s).immMode = false := rfl
@[simp] theorem abort_rom (w : AbortReason) (s : State) : (abort w s).rom = s.rom := rfl
@[simp] theorem abort_cycleBits (w : AbortReason) (s : State) : (abort w s).cycleBits = s.cycleBits := rfl
@[simp] theorem abort_freeIndex (w : AbortReason) (s : State) : (abort w s).freeIndex = s.freeIndex + 1 := rfl

@[simp] theorem hostRead_regs (s : State) : (hostRead s).regs = s.regs := rfl
@[simp] theorem hostRead_bankX (s : State) : (hostRead s).bankX = s.bankX := rfl
@[simp] theorem hostRead_bankY (s : State) : (hostRead s).bankY = s.bankY := rfl
@[simp] theorem hostRead_aluOp (s : State) : (hostRead s).aluOp = s.aluOp := rfl
@[simp] theorem hostRead_carry (s : State) : (hostRead s).carry = s.carry := rfl
@[simp] theorem hostRead_zero (s : State) : (hostRead s).zero = s.zero := rfl
@[simp] theorem hostRead_bus (s : State) : (hostRead s).bus = s.bus := rfl
@[simp] theorem hostRead_hold (s : State) : (hostRead s).hold = s.hold := rfl
@[simp] theorem hostRead_ip (s : State) : (hostRead s).ip = s.ip := rfl
@[simp] theorem hostRead_halted (s : State) : (hostRead s).halted = s.halted := rfl
@[simp] theorem hostRead_haltCause (s : State) : (hostRead s).haltCause = s.haltCause := rfl
@[simp] theorem hostRead_abortReason (s : State) : (hostRead s).abortReason = s.abortReason := rfl
@[simp] theorem hostRead_ctrl (s : State) : (hostRead s).ctrl = s.ctrl := rfl
@[simp] theorem hostRead_cycleCount (s : State) : (hostRead s).cycleCount = s.cycleCount := rfl
@[simp] theorem hostRead_rom (s : State) : (hostRead s).rom = s.rom := rfl

@[simp] theorem settle_ok (s t : State) : settle s (.ok t) = t := rfl
@[simp] theorem settle_error (s : State) (w : AbortReason) : settle s (.error w) = abort w s := rfl

/-- A conditional branch changes ip only. -/
theorem condBranch_eq (inv sel : Bool) (t : BitVec 6) (s : State) :
    condBranch inv sel t s = { s with ip := if branchTaken inv sel s then targetIp t else s.ip } := by
  unfold condBranch branchTo
  split <;> rfl

end Sys2Proof.Machine
end

