-- ==== Sys2Proof/Laws/Alu.lean ====
section
/-! SUPPORT. What the ALU and the write-enable strobe do, once each: the code table, the evaluation, the strobe and
the two instruction sequences built on it (40_alu.md R81 to R85, 10_state.md R28 to R31, 42_load_immediate.md
R120). -/

namespace Sys2Proof.Machine

@[simp] theorem aluOpOfCode_aluCode (op : AluOp) : aluOpOfCode (aluCode op) = some op := by
  cases op <;> rfl

/-- The invalid codes are exactly those that are 6 or more. -/
theorem aluOpOfCode_eq_none (c : BitVec 3) : aluOpOfCode c = none ↔ 6 ≤ c.toNat := by
  revert c; decide

theorem aluCode_lt (op : AluOp) : (aluCode op).toNat < 6 := by
  cases op <;> decide

/-- A code that names an operation is that operation's code. -/
theorem aluOpOfCode_eq_some {c : BitVec 3} {op : AluOp} (h : aluOpOfCode c = some op) : c = aluCode op := by
  revert c; cases op <;> decide

/-- The result of add is the 8-bit sum. -/
@[simp] theorem addNine_setWidth (a b : Byte) : (addNine a b).setWidth 8 = a + b := by
  apply BitVec.eq_of_toNat_eq
  simp [addNine, BitVec.toNat_setWidth, BitVec.toNat_add]

/-- The carry of add is that the exact sum does not fit 8 bits. -/
theorem addNine_carry (a b : Byte) : (addNine a b).getLsbD 8 = decide (256 ≤ a.toNat + b.toNat) := by
  have ha := a.isLt
  have hb := b.isLt
  have hsum : (addNine a b).toNat = a.toNat + b.toNat := by
    simp [addNine, BitVec.toNat_setWidth, BitVec.toNat_add]
    omega
  rw [BitVec.getLsbD, hsum, Nat.testBit_eq_decide_div_mod_eq]
  congr 1
  apply propext
  constructor <;> intro h <;> omega

@[simp] theorem addNine_getElem (a b : Byte) : (addNine a b)[8] = decide (256 ≤ a.toNat + b.toNat) :=
  addNine_carry a b

/-- The evaluation of a state whose alu_op names an operation. -/
theorem aluEval_of_code {s : State} {op : AluOp} (h : aluOpOfCode s.aluOp = some op) :
    aluEval s = .ok { s with
      hold := (aluFn op (s.regs.read .x s.bankX) (s.regs.read .y s.bankY)).1
      carry := (aluFn op (s.regs.read .x s.bankX) (s.regs.read .y s.bankY)).2
      zero := zeroFlag (aluFn op (s.regs.read .x s.bankX) (s.regs.read .y s.bankY)).1 } := by
  unfold aluEval
  rw [h]

theorem aluEval_invalid {s : State} (h : 6 ≤ s.aluOp.toNat) : aluEval s = .error .aluOp := by
  unfold aluEval
  rw [(aluOpOfCode_eq_none s.aluOp).2 h]

/-- If an evaluation answers, it changed hold, carry and zero only, and alu_op is legal. -/
theorem aluEval_ok {s t : State} (h : aluEval s = .ok t) :
    s.aluOp.toNat < 6 ∧ ∃ r c z, t = { s with hold := r, carry := c, zero := z } := by
  unfold aluEval at h
  split at h
  · cases h
  · next op hop =>
    cases h
    refine ⟨?_, _, _, _, rfl⟩
    rw [aluOpOfCode_eq_some hop]
    exact aluCode_lt op

/-- An evaluation aborts only for ALU_OP. -/
theorem aluEval_error {s : State} {w : AbortReason} (h : aluEval s = .error w) :
    w = .aluOp ∧ 6 ≤ s.aluOp.toNat := by
  unfold aluEval at h
  split at h
  · next hn =>
    cases h
    exact ⟨rfl, (aluOpOfCode_eq_none _).1 hn⟩
  · cases h

/-- If a strobe answers, it changed the registers of its mask, hold, carry and zero only. -/
theorem writeEnable_ok {m : BitVec 4} {s t : State} (h : writeEnable m s = .ok t) :
    s.aluOp.toNat < 6 ∧ ∃ v r c z, writeSource s = .ok v ∧
      t = { s with regs := s.regs.latch m v, hold := r, carry := c, zero := z } := by
  unfold writeEnable at h
  split at h
  · cases h
  · next v hv =>
    obtain ⟨hop, r, c, z, ht⟩ := aluEval_ok h
    exact ⟨hop, v, r, c, z, hv, ht⟩

theorem writeSource_bus {s : State} (h : s.immMode = false) : writeSource s = .ok s.bus := by
  unfold writeSource
  simp [h]

theorem writeSource_imm {s : State} {w : Word} (h : s.immMode = true) (hw : s.rom.romRead s.ip.toNat = some w) :
    writeSource s = .ok (w.setWidth 8) := by
  unfold writeSource
  simp [h, hw]

/-- The source of a strobe fails only as an immediate read outside the ROM. -/
theorem writeSource_error {s : State} {w : AbortReason} (h : writeSource s = .error w) :
    w = .immRange ∧ s.immMode = true ∧ 64 ≤ s.ip.toNat := by
  unfold writeSource at h
  split at h
  · next himm =>
    split at h
    · next hn =>
      cases h
      exact ⟨rfl, himm, Memory.romRead_eq_none.1 hn⟩
    · cases h
  · cases h

/-- If an ALU instruction's sequence answers, it changed the selectors, alu_op, the destination, bus, hold, carry
and zero only. -/
theorem aluSequence_ok {bx bY : BitVec 1} {op : BitVec 3} {d : BitVec 2} {s t : State}
    (h : aluSequence bx bY op d s = .ok t) :
    op.toNat < 6 ∧ ∃ v b r c z, t = { s with
      regs := s.regs.set d v, bankX := bx, bankY := bY, aluOp := op, bus := b, hold := r, carry := c,
      zero := z } := by
  unfold aluSequence at h
  split at h
  · cases h
  · next t₁ h₁ =>
    obtain ⟨hop, r₁, c₁, z₁, rfl⟩ := aluEval_ok h₁
    obtain ⟨-, v, r, c, z, -, rfl⟩ := writeEnable_ok h
    exact ⟨hop, v, r₁, r, c, z, by simp [Regs.latch_destMask]⟩

/-- If a load immediate's sequence answers, it changed the registers of the mask, hold, carry, zero and ip only,
and the payload was inside the ROM. -/
theorem loadSequence_ok {m : BitVec 4} {s t : State} (h : loadSequence m s = .ok t) :
    s.aluOp.toNat < 6 ∧ s.ip.toNat < 64 ∧ ∃ v r c z, t = { s with
      regs := s.regs.latch m v, hold := r, carry := c, zero := z, immMode := false, ip := s.ip + 1 } := by
  unfold loadSequence at h
  split at h
  · cases h
  · next t₁ h₁ =>
    obtain ⟨hop, v, r, c, z, hv, rfl⟩ := writeEnable_ok h₁
    cases h
    refine ⟨hop, ?_, v, r, c, z, rfl⟩
    by_contra hge
    have hnone := Memory.romRead_eq_none (m := s.rom).2 (Nat.le_of_not_lt hge)
    simp [writeSource, hnone] at hv

/-- Every legal code names an operation. -/
theorem exists_aluCode {c : BitVec 3} (h : c.toNat < 6) : ∃ op, c = aluCode op := by
  cases hc : aluOpOfCode c with
  | none =>
    have := (aluOpOfCode_eq_none c).1 hc
    omega
  | some op => exact ⟨op, aluOpOfCode_eq_some hc⟩

/-- The whole effect of an ALU instruction's sequence for each of the six operations. -/
theorem aluSequence_of_code (op : AluOp) (bx bY : BitVec 1) (d : BitVec 2) {s : State} (h : s.immMode = false) :
    aluSequence bx bY (aluCode op) d s =
      let r1 := (aluFn op (s.regs.read .x bx) (s.regs.read .y bY)).1
      let r2 := aluFn op ((s.regs.set d r1).read .x bx) ((s.regs.set d r1).read .y bY)
      .ok { s with
        regs := s.regs.set d r1, bankX := bx, bankY := bY, aluOp := aluCode op, bus := r1
        hold := r2.1, carry := r2.2, zero := zeroFlag r2.1 } := by
  unfold aluSequence
  rw [aluEval_of_code (op := op) (by simp)]
  simp only [writeEnable]
  rw [writeSource_bus (by simpa using h)]
  simp only
  rw [aluEval_of_code (op := op) (by simp)]
  simp [Regs.latch_destMask]

/-- An ALU instruction with an invalid code aborts at its first evaluation. -/
theorem aluSequence_invalid {bx bY : BitVec 1} {op : BitVec 3} {d : BitVec 2} {s : State} (h : 6 ≤ op.toNat) :
    aluSequence bx bY op d s = .error .aluOp := by
  unfold aluSequence
  rw [aluEval_invalid h]

/-- The whole effect of a load immediate's sequence, with its payload inside the ROM. -/
theorem loadSequence_of_code (op : AluOp) (m : BitVec 4) {s : State} {p : Word} (h : s.aluOp = aluCode op)
    (hp : s.rom.romRead s.ip.toNat = some p) :
    loadSequence m s =
      let r := s.regs.latch m (p.setWidth 8)
      let r2 := aluFn op (r.read .x s.bankX) (r.read .y s.bankY)
      .ok { s with
        regs := r, hold := r2.1, carry := r2.2, zero := zeroFlag r2.1, immMode := false, ip := s.ip + 1 } := by
  unfold loadSequence
  simp only [writeEnable]
  rw [writeSource_imm (w := p) (by rfl) (by simpa using hp)]
  simp only
  rw [aluEval_of_code (op := op) (by simp [h])]

/-- A load immediate whose payload is outside the ROM aborts. -/
theorem loadSequence_outside {m : BitVec 4} {s : State} (h : 64 ≤ s.ip.toNat) :
    loadSequence m s = .error .immRange := by
  have hn : Memory.romRead s.rom s.ip.toNat = none := Memory.romRead_eq_none.2 h
  simp [loadSequence, writeEnable, writeSource, hn]

end Sys2Proof.Machine
end

