-- ==== Sys2Proof/Laws/PerInstr.lean ====
section
/-! SUPPORT. Laws of every instruction as syntax, one lemma per constructor: its opcode word matches its row of
spec/opcode_table.json, and the word alone tells the instruction's length (30_encoding.md R60, R72). -/

namespace Sys2Proof.Laws.OpcodeWord

/-- The word of a well-formed instruction matches its row (word AND mask = match) and alone tells the length. -/
def Statement (i : Instr) : Prop :=
  i.wf = true → encode i &&& i.row.2 = i.row.1 ∧ wordLength (encode i) = i.length

theorem jc (t : BitVec 6) : Statement (.jc t) := by revert t; unfold Statement; decide
theorem jz (t : BitVec 6) : Statement (.jz t) := by revert t; unfold Statement; decide
theorem jnc (t : BitVec 6) : Statement (.jnc t) := by revert t; unfold Statement; decide
theorem jnz (t : BitVec 6) : Statement (.jnz t) := by revert t; unfold Statement; decide
theorem add (bx bY : BitVec 1) (d : BitVec 2) : Statement (.add bx bY d) := by
  revert bx bY d; unfold Statement; decide
theorem xor (bx bY : BitVec 1) (d : BitVec 2) : Statement (.xor bx bY d) := by
  revert bx bY d; unfold Statement; decide
theorem and (bx bY : BitVec 1) (d : BitVec 2) : Statement (.and bx bY d) := by
  revert bx bY d; unfold Statement; decide
theorem or (bx bY : BitVec 1) (d : BitVec 2) : Statement (.or bx bY d) := by
  revert bx bY d; unfold Statement; decide
theorem passx (bx bY : BitVec 1) (d : BitVec 2) : Statement (.passx bx bY d) := by
  revert bx bY d; unfold Statement; decide
theorem passy (bx bY : BitVec 1) (d : BitVec 2) : Statement (.passy bx bY d) := by
  revert bx bY d; unfold Statement; decide
theorem aluOp6 (bx bY : BitVec 1) (d : BitVec 2) : Statement (.aluOp6 bx bY d) := by
  revert bx bY d; unfold Statement; decide
theorem aluOp7 (bx bY : BitVec 1) (d : BitVec 2) : Statement (.aluOp7 bx bY d) := by
  revert bx bY d; unfold Statement; decide
theorem jmp (t : BitVec 6) : Statement (.jmp t) := by revert t; unfold Statement; decide
theorem reserved (g : BitVec 5) : Statement (.reserved g) := by revert g; unfold Statement; decide
theorem li (m : BitVec 4) : Statement (.li m) := by revert m; unfold Statement; decide
theorem halt (g : BitVec 1) : Statement (.halt g) := by revert g; unfold Statement; decide
theorem clc (g : BitVec 1) : Statement (.clc g) := by revert g; unfold Statement; decide
theorem noopInvalid23 (g : BitVec 1) (sel : BitVec 3) : Statement (.noopInvalid23 g sel) := by
  revert g sel; unfold Statement; decide
theorem noopInvalid47 (g : BitVec 1) (sel : BitVec 3) : Statement (.noopInvalid47 g sel) := by
  revert g sel; unfold Statement; decide

end Sys2Proof.Laws.OpcodeWord
end

