-- ==== Sys2Proof/Laws/Step.lean ====
section
/-! SUPPORT. What a step can do, said once: the controller's gate, the fetch, and one inversion lemma per family of
instructions (70_reset_and_hazards.md R174 to R176, 30_encoding.md R62). -/

namespace Sys2Proof.Machine

theorem issue_preReset {s : State} (h : s.ctrl = .preReset) : issue s = .refuse := by
  simp [issue, h]

theorem issue_halted {s : State} (h : s.ctrl = .halted) : issue s = .idle := by
  simp [issue, h]

theorem issue_aborted {s : State} (h : s.ctrl = .aborted) : issue s = .idle := by
  simp [issue, h]

theorem issue_running {s : State} (h : s.ctrl = .running) (hh : s.halted = false) : issue s = fetch s := by
  simp [issue, h, hh]

/-- The pointer does not wrap at 64: a 7-bit register holds the increment of every address of the ROM. -/
theorem ip_succ {p : BitVec 7} (h : p.toNat < 64) : (p + 1).toNat = p.toNat + 1 := by
  simp [BitVec.toNat_add]
  omega

theorem fetch_inside {s : State} (h : s.ip.toNat < 64) :
    fetch s = .dispatch (s.rom.get s.ip.toNat) (advance s) := by
  simp [fetch, Memory.romRead, h]

theorem fetch_outside {s : State} (h : 64 ≤ s.ip.toNat) : fetch s = .abortFetch := by
  simp [fetch, Memory.romRead_eq_none.2 h]

/-- What a step's gate can issue: the four cases, each with what it says of the state. -/
theorem issue_cases (s : State) :
    (s.ctrl = .preReset ∧ issue s = .refuse) ∨
    ((s.ctrl = .halted ∨ s.ctrl = .aborted ∨ s.halted = true) ∧ s.ctrl ≠ .preReset ∧ issue s = .idle) ∨
    (s.ctrl = .running ∧ s.halted = false ∧ 64 ≤ s.ip.toNat ∧ issue s = .abortFetch) ∨
    (s.ctrl = .running ∧ s.halted = false ∧ s.ip.toNat < 64 ∧
      issue s = .dispatch (s.rom.get s.ip.toNat) (advance s)) := by
  cases hc : s.ctrl with
  | preReset => exact .inl ⟨rfl, issue_preReset hc⟩
  | halted => exact .inr (.inl ⟨.inl rfl, by simp, issue_halted hc⟩)
  | aborted => exact .inr (.inl ⟨.inr (.inl rfl), by simp, issue_aborted hc⟩)
  | running =>
    cases hh : s.halted with
    | true => exact .inr (.inl ⟨.inr (.inr rfl), by simp, by simp [issue, hc, hh]⟩)
    | false =>
      by_cases hip : s.ip.toNat < 64
      · exact .inr (.inr (.inr ⟨rfl, rfl, hip, by rw [issue_running hc hh, fetch_inside hip]⟩))
      · have hip' : 64 ≤ s.ip.toNat := by omega
        exact .inr (.inr (.inl ⟨rfl, rfl, hip', by rw [issue_running hc hh, fetch_outside hip']⟩))

/-- Every answer of exec is a next state, and it is one of these: a branch, a sequence that settles, a halt, or a
cleared carry. -/
theorem exec_cases (i : Instr) (s : State) :
    ∃ t, exec i s = .next t ∧
      ((∃ p, t = { s with ip := p } ∧ (p = s.ip ∨ p.toNat < 64)) ∨
       (∃ bx bY op d, t = settle s (aluSequence bx bY op d s)) ∨
       (∃ m, t = settle s (loadSequence m s)) ∨
       (∃ c, c ≠ .none ∧ t = haltWith c s) ∨
       t = { s with carry := false }) := by
  have branch : ∀ (inv sel : Bool) (t : BitVec 6),
      ∃ p, condBranch inv sel t s = { s with ip := p } ∧ (p = s.ip ∨ p.toNat < 64) := by
    intro inv sel t
    rw [condBranch_eq]
    refine ⟨_, rfl, ?_⟩
    split
    · exact .inr (by rw [targetIp_toNat]; exact t.isLt)
    · exact .inl rfl
  cases i with
  | jc t => exact ⟨_, rfl, .inl (branch _ _ t)⟩
  | jz t => exact ⟨_, rfl, .inl (branch _ _ t)⟩
  | jnc t => exact ⟨_, rfl, .inl (branch _ _ t)⟩
  | jnz t => exact ⟨_, rfl, .inl (branch _ _ t)⟩
  | jmp t => exact ⟨_, rfl, .inl ⟨_, rfl, .inr (by rw [targetIp_toNat]; exact t.isLt)⟩⟩
  | add bx bY d => exact ⟨_, rfl, .inr (.inl ⟨bx, bY, _, d, rfl⟩)⟩
  | xor bx bY d => exact ⟨_, rfl, .inr (.inl ⟨bx, bY, _, d, rfl⟩)⟩
  | and bx bY d => exact ⟨_, rfl, .inr (.inl ⟨bx, bY, _, d, rfl⟩)⟩
  | or bx bY d => exact ⟨_, rfl, .inr (.inl ⟨bx, bY, _, d, rfl⟩)⟩
  | passx bx bY d => exact ⟨_, rfl, .inr (.inl ⟨bx, bY, _, d, rfl⟩)⟩
  | passy bx bY d => exact ⟨_, rfl, .inr (.inl ⟨bx, bY, _, d, rfl⟩)⟩
  | aluOp6 bx bY d => exact ⟨_, rfl, .inr (.inl ⟨bx, bY, _, d, rfl⟩)⟩
  | aluOp7 bx bY d => exact ⟨_, rfl, .inr (.inl ⟨bx, bY, _, d, rfl⟩)⟩
  | li m => exact ⟨_, rfl, .inr (.inr (.inl ⟨m, rfl⟩))⟩
  | halt g => exact ⟨_, rfl, .inr (.inr (.inr (.inl ⟨_, by simp, rfl⟩)))⟩
  | reserved g => exact ⟨_, rfl, .inr (.inr (.inr (.inl ⟨_, by simp, rfl⟩)))⟩
  | noopInvalid23 g sel => exact ⟨_, rfl, .inr (.inr (.inr (.inl ⟨_, by simp, rfl⟩)))⟩
  | noopInvalid47 g sel => exact ⟨_, rfl, .inr (.inr (.inr (.inl ⟨_, by simp, rfl⟩)))⟩
  | clc g => exact ⟨_, rfl, .inr (.inr (.inr (.inr rfl)))⟩

/-- An instruction that does not abort has one of four effects: the ALU instruction's, the load immediate's, clc's, or
a write of ip or of the halt fields alone. -/
theorem exec_effect {i : Instr} {s t : State} (h : exec i s = .next t) (hna : t.ctrl ≠ .aborted) :
    (∃ bx bY op d v b r c z, i.isAlu = true ∧ i.dests = destMask d ∧ t = { s with
      regs := s.regs.set d v, bankX := bx, bankY := bY, aluOp := op, bus := b, hold := r, carry := c, zero := z }) ∨
    (∃ m v r c z, i = .li m ∧ t = { s with
      regs := s.regs.latch m v, hold := r, carry := c, zero := z, immMode := false, ip := s.ip + 1 }) ∨
    (∃ g, i = .clc g ∧ t = { s with carry := false }) ∨
    (i.isAlu = false ∧ i.isLi = false ∧ i.isClc = false ∧
      ((∃ p, t = { s with ip := p }) ∨ ∃ c, i.haltCause = some c ∧ t = haltWith c s)) := by
  have alu : ∀ (bx bY : BitVec 1) (op : BitVec 3) (d : BitVec 2),
      t = settle s (aluSequence bx bY op d s) → op.toNat < 6 ∧ ∃ v b r c z, t = { s with
        regs := s.regs.set d v, bankX := bx, bankY := bY, aluOp := op, bus := b, hold := r, carry := c,
        zero := z } := by
    rintro bx bY op d rfl
    cases hs : aluSequence bx bY op d s with
    | error w => simp [hs] at hna
    | ok u => exact aluSequence_ok hs
  have valid : ∀ (j : Instr) (op : AluOp) (bx bY : BitVec 1) (d : BitVec 2), j.isAlu = true →
      j.dests = destMask d → t = settle s (aluSequence bx bY (aluCode op) d s) →
      ∃ bx bY op d v b r c z, j.isAlu = true ∧ j.dests = destMask d ∧ t = { s with
        regs := s.regs.set d v, bankX := bx, bankY := bY, aluOp := op, bus := b, hold := r, carry := c,
        zero := z } := by
    intro j op bx bY d ha hd ht
    obtain ⟨-, v, b, r, c, z, e⟩ := alu bx bY (aluCode op) d ht
    exact ⟨bx, bY, _, d, v, b, r, c, z, ha, hd, e⟩
  cases i with
  | add bx bY d => exact .inl (valid _ .add bx bY d rfl rfl (Host.Outcome.next.inj h).symm)
  | xor bx bY d => exact .inl (valid _ .xor bx bY d rfl rfl (Host.Outcome.next.inj h).symm)
  | and bx bY d => exact .inl (valid _ .and bx bY d rfl rfl (Host.Outcome.next.inj h).symm)
  | or bx bY d => exact .inl (valid _ .or bx bY d rfl rfl (Host.Outcome.next.inj h).symm)
  | passx bx bY d => exact .inl (valid _ .passX bx bY d rfl rfl (Host.Outcome.next.inj h).symm)
  | passy bx bY d => exact .inl (valid _ .passY bx bY d rfl rfl (Host.Outcome.next.inj h).symm)
  | aluOp6 bx bY d => exact absurd (alu bx bY 6#3 d (Host.Outcome.next.inj h).symm).1 (by decide)
  | aluOp7 bx bY d => exact absurd (alu bx bY 7#3 d (Host.Outcome.next.inj h).symm).1 (by decide)
  | li m =>
    have ht : t = settle s (loadSequence m s) := (Host.Outcome.next.inj h).symm
    cases hs : loadSequence m s with
    | error w => simp [ht, hs] at hna
    | ok u =>
      obtain ⟨-, -, v, r, c, z, rfl⟩ := loadSequence_ok hs
      exact .inr (.inl ⟨m, v, r, c, z, rfl, by rw [ht, hs]; rfl⟩)
  | clc g => exact .inr (.inr (.inl ⟨g, rfl, (Host.Outcome.next.inj h).symm⟩))
  | jc a => exact .inr (.inr (.inr ⟨rfl, rfl, rfl, .inl ⟨_, (Host.Outcome.next.inj h).symm.trans (condBranch_eq _ _ _ _)⟩⟩))
  | jz a => exact .inr (.inr (.inr ⟨rfl, rfl, rfl, .inl ⟨_, (Host.Outcome.next.inj h).symm.trans (condBranch_eq _ _ _ _)⟩⟩))
  | jnc a => exact .inr (.inr (.inr ⟨rfl, rfl, rfl, .inl ⟨_, (Host.Outcome.next.inj h).symm.trans (condBranch_eq _ _ _ _)⟩⟩))
  | jnz a => exact .inr (.inr (.inr ⟨rfl, rfl, rfl, .inl ⟨_, (Host.Outcome.next.inj h).symm.trans (condBranch_eq _ _ _ _)⟩⟩))
  | jmp a => exact .inr (.inr (.inr ⟨rfl, rfl, rfl, .inl ⟨_, (Host.Outcome.next.inj h).symm⟩⟩))
  | halt g => exact .inr (.inr (.inr ⟨rfl, rfl, rfl, .inr ⟨_, rfl, (Host.Outcome.next.inj h).symm⟩⟩))
  | reserved g => exact .inr (.inr (.inr ⟨rfl, rfl, rfl, .inr ⟨_, rfl, (Host.Outcome.next.inj h).symm⟩⟩))
  | noopInvalid23 g sel => exact .inr (.inr (.inr ⟨rfl, rfl, rfl, .inr ⟨_, rfl, (Host.Outcome.next.inj h).symm⟩⟩))
  | noopInvalid47 g sel => exact .inr (.inr (.inr ⟨rfl, rfl, rfl, .inr ⟨_, rfl, (Host.Outcome.next.inj h).symm⟩⟩))

/-- A running machine's step is an aborted fetch or the dispatch of the fetched cell. -/
theorem step_running {s t : State} (hr : s.ctrl = .running) (hh : s.halted = false) (h : step s = .next t) :
    (64 ≤ s.ip.toNat ∧ t = abort .fetchRange s) ∨
    (s.ip.toNat < 64 ∧ exec (decode (s.rom.get s.ip.toNat)) (advance s) = .next t) := by
  by_cases hl : s.ip.toNat < 64
  · simp only [step, issue_running hr hh, fetch_inside hl] at h
    exact .inr ⟨hl, h⟩
  · simp only [step, issue_running hr hh, fetch_outside (Nat.le_of_not_lt hl), Host.Outcome.next.injEq] at h
    exact .inl ⟨Nat.le_of_not_lt hl, h.symm⟩

/-- A run of a machine that is not Running stays where it is. -/
theorem runLoop_stopped {n : Nat} {s : State} (h : s.ctrl ≠ .running) : runLoop n s = .next s := by
  cases n <;> simp [runLoop, h]

/-- What every step keeps, every run keeps. -/
theorem runLoop_keeps {P : State → Prop} (hstep : ∀ s t, P s → step s = .next t → P t) :
    ∀ (n : Nat) (s t : State), P s → runLoop n s = .next t → P t := by
  intro n
  induction n with
  | zero =>
    intro s t hs h
    cases h
    exact hs
  | succ n ih =>
    intro s t hs h
    by_cases hr : s.ctrl = .running
    · simp only [runLoop, if_pos hr] at h
      cases he : step s with
      | next u =>
        rw [he] at h
        exact ih u t (hstep s u hs he) h
      | fault r => exact nomatch r
      | refused r =>
        rw [he] at h
        cases h
    · rw [runLoop_stopped hr] at h
      cases h
      exact hs

end Sys2Proof.Machine
end

