-- ==== Sys2Proof/Tests/Slice0.lean ====
section
/-! SUPPORT. The model's own tests: the vectors of spec/95_test_vectors.md (one step each), words decoded from the
spec's encodings, ill-formed terms, and a witness for the hypotheses of every statement. -/

namespace Sys2Proof.Tests

open Sys2Proof.Machine

/-! ## Helpers -/

/-- The start state of the spec's L2 vectors: Running, every other field 0. -/
def base : State := { State.reset with zero := false }

/-- `base` with registers and a ROM. -/
def start (x0 x1 y0 y1 : Byte) (rom : Memory) : State := { base with regs := ⟨x0, x1, y0, y1⟩, rom := rom }

/-- `base` at an address with a ROM. -/
def startAt (ip : BitVec 7) (rom : Memory) : State := { base with ip := ip, rom := rom }

/-- The state after one step; the state itself where the step gives none. -/
def after (s : State) : State :=
  match step s with
  | .next t => t
  | .fault _ => s
  | .refused _ => s

/-- registers, bank_x, bank_y, alu_op -/
def file (s : State) : Regs × BitVec 1 × BitVec 1 × BitVec 3 := (s.regs, s.bankX, s.bankY, s.aluOp)

/-- bus, hold, carry, zero, ip, cycle_count -/
def latches (s : State) : Byte × Byte × Bool × Bool × BitVec 7 × Nat :=
  (s.bus, s.hold, s.carry, s.zero, s.ip, s.cycleCount)

/-- ctrl, halted, halt_cause, abort_reason -/
def control (s : State) : Ctrl × Bool × HaltCause × AbortReason :=
  (s.ctrl, s.halted, s.haltCause, s.abortReason)

/-! ## Well-formedness: each check refuses an ill-formed term -/

theorem test_wf_refuses_selector_1_in_2_3 : (Instr.noopInvalid23 0 1).wf = false := by decide
theorem test_wf_refuses_selector_4_in_2_3 : (Instr.noopInvalid23 0 4).wf = false := by decide
theorem test_wf_refuses_selector_3_in_4_7 : (Instr.noopInvalid47 0 3).wf = false := by decide
theorem test_wf_accepts_bounds :
    (Instr.noopInvalid23 1 3).wf = true ∧ (Instr.noopInvalid47 0 4).wf = true := by decide
theorem test_payload_wf_refuses_bit_8 : payloadWf 0x1FF = false ∧ payloadWf 0x0FF = true := by decide
theorem test_image_wf_refuses_odd_length : imageWf [0x11, 0x00, 0x05] = false ∧ imageWf [0xFF, 0x01] = true := by
  decide
theorem test_memory_wf_refuses_disorder_zero_and_64 :
    Memory.wf [(3, 1), (2, 1)] = false ∧ Memory.wf [(3, 0)] = false ∧ Memory.wf [(64, 1)] = false ∧
      Memory.wf [(0, 1), (63, 511)] = true := by decide

/-! ## Decoding: words written from the spec's encodings (30_encoding.md R64 to R69, 95_test_vectors.md) -/

theorem test_decode_jc : decode 0b100001001 = .jc 9 := by decide
theorem test_decode_jz : decode 0b101001100 = .jz 12 := by decide
theorem test_decode_jnc : decode 0b110000110 = .jnc 6 := by decide
theorem test_decode_jnz : decode 0b111000000 = .jnz 0 := by decide
theorem test_decode_add : decode 0b011100011 = .add 1 1 3 := by decide
theorem test_decode_add_s2 : decode 0x0C0 = .add 1 0 0 := by decide
theorem test_decode_xor : decode 0b010000100 = .xor 0 0 0 := by decide
theorem test_decode_and : decode 0b010001011 = .and 0 0 3 := by decide
theorem test_decode_or : decode 0b010001101 = .or 0 0 1 := by decide
theorem test_decode_passx : decode 0b011010010 = .passx 1 0 2 := by decide
theorem test_decode_passy : decode 0b010110100 = .passy 0 1 0 := by decide
theorem test_decode_aluOp6 : decode 0b011011001 = .aluOp6 1 0 1 := by decide
theorem test_decode_aluOp7 : decode 0b010111110 = .aluOp7 0 1 2 := by decide
theorem test_decode_jmp : decode 0b001001110 = .jmp 14 := by decide
theorem test_decode_reserved : decode 0b000110101 = .reserved 21 := by decide
theorem test_decode_li : decode 0b000011000 = .li 8 := by decide
theorem test_decode_halt : decode 0b000000000 = .halt 0 ∧ decode 0b000001000 = .halt 1 := by decide
theorem test_decode_clc : decode 0b000000001 = .clc 0 ∧ decode 0b000001001 = .clc 1 := by decide
theorem test_decode_noopInvalid23 :
    decode 0b000000010 = .noopInvalid23 0 2 ∧ decode 0b000001011 = .noopInvalid23 1 3 := by decide
theorem test_decode_noopInvalid47 :
    decode 0b000000100 = .noopInvalid47 0 4 ∧ decode 0b000001111 = .noopInvalid47 1 7 := by decide

/-- a table word is laid out as a 2-byte little-endian cell; the payload cell of li is 0 -/
theorem test_decodeTableWord : decodeTableWord 16 0x01F = some (.li 15) ∧ decodeTableWord 9 0x1FF = some (.jnz 63) := by
  decide
theorem test_decodeBytes_refuses_half_a_cell : (decodeBytes [0x11]).toOption = none := by decide
/-- P1's image begins `14 00 0F 00`: li {y0}, 0x0F -/
theorem test_encodeLi : encodeLi 4 0x0F = [0x014, 0x00F] := by decide
theorem test_disassemble : disassemble 0x008 = .op (.halt 0) ∧ disassemble 0x005 = .word 0x005 := by decide
theorem test_mov : (AsmLine.movX 0 1).words = some [0x0D0] := by decide

/-- the codes of R143 and R144 -/
theorem test_codes :
    [HaltCause.none, .halt, .faultReserved, .faultNoop].map HaltCause.code = [0, 1, 2, 3] ∧
      [AbortReason.none, .fetchRange, .immRange, .aluOp].map AbortReason.code = [0, 1, 2, 3] ∧
      (∀ c, (HaltCause.ofCode c).code = c) ∧ (∀ c, (AbortReason.ofCode c).code = c) := by decide

/-! ## One step: the vectors of 95_test_vectors.md -/

/-- V-A1 -/
theorem test_step_add : let t := after (start 0xC8 0 0x64 0 [(0, 0x083)])
    file t = (⟨0xC8, 0, 0x64, 0x2C⟩, 0, 0, 0) ∧ latches t = (0x2C, 0x2C, true, false, 1, 1) := by decide
/-- V-A4: the destination is the X operand -/
theorem test_step_add_own_operand : let t := after (start 0xC8 0 0x64 0 [(0, 0x080)])
    file t = (⟨0x2C, 0, 0x64, 0⟩, 0, 0, 0) ∧ latches t = (0x2C, 0x90, false, false, 1, 1) := by decide
/-- V-A7 -/
theorem test_step_xor : let t := after (start 0xAA 0 0x55 0 [(0, 0x087)])
    file t = (⟨0xAA, 0, 0x55, 0xFF⟩, 0, 0, 1) ∧ latches t = (0xFF, 0xFF, false, false, 1, 1) := by decide
/-- V-A8: the destination is the X operand -/
theorem test_step_xor_own_operand : let t := after (start 0x0F 0 0x0F 0 [(0, 0x084)])
    file t = (⟨0, 0, 0x0F, 0⟩, 0, 0, 1) ∧ latches t = (0, 0x0F, false, false, 1, 1) := by decide
/-- V-A9 -/
theorem test_step_and : let t := after (start 0xF0 0 0x0F 0 [(0, 0x08B)])
    file t = (⟨0xF0, 0, 0x0F, 0⟩, 0, 0, 2) ∧ latches t = (0, 0, false, true, 1, 1) := by decide
/-- V-A10 -/
theorem test_step_or : let t := after (start 0xF0 0 0x0F 0 [(0, 0x08F)])
    file t = (⟨0xF0, 0, 0x0F, 0xFF⟩, 0, 0, 3) ∧ latches t = (0xFF, 0xFF, false, false, 1, 1) := by decide
/-- V-A12 -/
theorem test_step_passx : let t := after (start 0x33 0x44 0x55 0x66 [(0, 0x0F0)])
    file t = (⟨0x44, 0x44, 0x55, 0x66⟩, 1, 1, 4) ∧ latches t = (0x44, 0x44, false, false, 1, 1) := by decide
/-- V-A13 -/
theorem test_step_passy : let t := after (start 0x07 0 0 0 [(0, 0x0B4)])
    file t = (⟨0, 0, 0, 0⟩, 0, 1, 5) ∧ latches t = (0, 0, false, true, 1, 1) := by decide
/-- V-A15 -/
theorem test_step_aluOp6 : control (after (start 1 2 3 4 [(0, 0x098)])) = (.aborted, false, .none, .aluOp) := by decide
/-- V-A16 -/
theorem test_step_aluOp7 : control (after (start 1 2 3 4 [(0, 0x0FF)])) = (.aborted, false, .none, .aluOp) := by decide

/-- V-B2, V-B3 -/
theorem test_step_jc :
    (after { startAt 4 [(4, 0x109)] with carry := true }).ip = 9 ∧
      (after { startAt 4 [(4, 0x109)] with zero := true }).ip = 5 := by decide
/-- V-B7, V-B6 -/
theorem test_step_jz :
    (after { startAt 4 [(4, 0x14C)] with zero := true }).ip = 12 ∧
      (after { startAt 4 [(4, 0x14C)] with carry := true }).ip = 5 := by decide
/-- V-B9, V-B10 -/
theorem test_step_jnc :
    (after (startAt 4 [(4, 0x186)])).ip = 6 ∧
      (after { startAt 4 [(4, 0x186)] with carry := true }).ip = 5 := by decide
/-- V-B14, V-B15 -/
theorem test_step_jnz :
    (after { startAt 4 [(4, 0x1C0)] with carry := true }).ip = 0 ∧
      (after { startAt 4 [(4, 0x1C0)] with zero := true }).ip = 5 := by decide
/-- V-J1 -/
theorem test_step_jmp : latches (after (startAt 12 [(12, 0x04E)])) = (0, 0, false, false, 14, 1) := by decide

/-- V-L3 -/
theorem test_step_li_all : let t := after (start 1 2 3 4 [(0, 0x01F), (1, 0x081)])
    t.regs = ⟨0x81, 0x81, 0x81, 0x81⟩ ∧ latches t = (0, 0x02, true, false, 2, 1) ∧ t.immMode = false := by decide
/-- V-L9 -/
theorem test_step_li_at_63 : control (after (startAt 63 [(63, 0x011)])) = (.aborted, false, .none, .immRange) := by
  decide

/-- V-N2: carry = 1 and zero = 1 at the start -/
theorem test_step_halt : let t := after { start 0 0 0 0 [(0, 0x008)] with carry := true, zero := true }
    control t = (.halted, true, .halt, .none) ∧ latches t = (0, 0, true, true, 1, 1) := by decide
/-- V-N3 -/
theorem test_step_clc : let t := after { start 0 0 0 0 [(0, 0x001)] with carry := true, zero := true }
    control t = (.running, false, .none, .none) ∧ latches t = (0, 0, false, true, 1, 1) := by decide
/-- V-N5 -/
theorem test_step_noopInvalid23 : let t := after { start 0 0 0 0 [(0, 0x002)] with carry := true, zero := true }
    control t = (.halted, true, .faultNoop, .none) ∧ latches t = (0, 0, true, true, 1, 1) := by decide
/-- V-N9 -/
theorem test_step_noopInvalid47 : let t := after { start 0 0 0 0 [(0, 0x00F)] with carry := true, zero := true }
    control t = (.halted, true, .faultNoop, .none) ∧ latches t = (0, 0, true, true, 1, 1) := by decide
/-- S3 and V-N11 -/
theorem test_step_reserved :
    latches (after { State.reset with rom := [(0, 0x020)] }) = (0, 0, false, true, 1, 1) ∧
      control (after (start 0 0 0 0 [(0, 0x03F)])) = (.halted, true, .faultReserved, .none) := by decide

/-- V-E4 -/
theorem test_step_fetch_at_64 : control (after (startAt 64 [])) = (.aborted, false, .none, .fetchRange) := by decide
/-- V-M1, V-M4 -/
theorem test_load : (loadRom [0x34, 0x12]) = [(0, 0x034)] ∧ (loadRom [0x11, 0x00, 0x05]) = [(0, 0x011)] := by decide
/-- V-M5: an empty image halts in one step after reset -/
theorem test_empty_rom_halts : control (after State.reset) = (.halted, true, .halt, .none) := by decide
/-- the placed word is the one the next step runs -/
theorem test_withFetchWord_runs_li : (after (State.reset.withFetchWord 16 0x01F)).ip = 2 := by decide

/-! ## Witnesses: a concrete state and operands for the hypotheses of every statement, one for each clause -/

/-- The state exec answers; exec always answers one. -/
def ran (i : Instr) (s : State) : State :=
  match exec i s with
  | .next t => t
  | .fault _ => s
  | .refused _ => s

theorem exec_ran (i : Instr) (s : State) : exec i s = .next (ran i s) := by
  obtain ⟨t, ht, -⟩ := exec_cases i s
  simp [ran, ht]

theorem step_after {s : State} (h : s.ctrl ≠ .preReset) : step s = .next (after s) := by
  have key : ∀ o : Host.Outcome State Fault Refusal, step s = o → (∃ t, o = .next t) → step s = .next (after s) := by
    rintro o ho ⟨t, rfl⟩
    simp [after, ho]
  rcases issue_cases s with ⟨hp, -⟩ | ⟨-, -, hi⟩ | ⟨-, -, -, hi⟩ | ⟨-, -, -, hi⟩
  · exact absurd hp h
  · exact key (.next s) (by simp only [step, hi]) ⟨s, rfl⟩
  · exact key (.next (abort .fetchRange s)) (by simp only [step, hi]) ⟨_, rfl⟩
  · obtain ⟨t, ht, -⟩ := exec_cases (decode (s.rom.get s.ip.toNat)) (advance s)
    exact key (.next t) (by simp only [step, hi, ht]) ⟨t, rfl⟩

/-- One step, seen as a run. -/
theorem runLoop_one {s : State} (h : s.ctrl = .running) : runLoop 1 s = .next (after s) := by
  simp [runLoop, h, step_after (s := s) (by simp [h])]

def haltedState : State := after State.reset
def abortedState : State := abort .fetchRange State.reset

theorem witness_ClassifyByHighestSetBit :
    256 ≤ (0x100 : Word).toNat ∧ 256 ≤ (0x1FF : Word).toNat ∧
    (128 ≤ (0x080 : Word).toNat ∧ (0x080 : Word).toNat < 256) ∧ (128 ≤ (0x0FF : Word).toNat ∧ (0x0FF : Word).toNat < 256) ∧
    (64 ≤ (0x040 : Word).toNat ∧ (0x040 : Word).toNat < 128) ∧ (64 ≤ (0x07F : Word).toNat ∧ (0x07F : Word).toNat < 128) ∧
    (32 ≤ (0x020 : Word).toNat ∧ (0x020 : Word).toNat < 64) ∧ (32 ≤ (0x03F : Word).toNat ∧ (0x03F : Word).toNat < 64) ∧
    (16 ≤ (0x010 : Word).toNat ∧ (0x010 : Word).toNat < 32) ∧ (16 ≤ (0x01F : Word).toNat ∧ (0x01F : Word).toNat < 32) ∧
    (0x000 : Word).toNat < 16 ∧ (0x00F : Word).toNat < 16 := by decide

/-- the two ends of each range of invalid words, and valid words beside them -/
theorem witness_DisassemblyAssemblesBack :
    (∀ w ∈ ([0x020, 0x03F, 0x002, 0x007, 0x00A, 0x00F, 0x098, 0x0FF] : List Word), InvalidWord w) ∧
    (∀ w ∈ ([0x001, 0x010, 0x01F, 0x040, 0x080, 0x100, 0x1FF] : List Word),
      ¬InvalidWord w ∧ w ≠ 0x008 ∧ w ≠ 0x009) := by decide

theorem witness_DecodeOfEncodeIsTheInstruction :
    (Instr.noopInvalid23 0 2).wf = true ∧ (Instr.noopInvalid47 1 7).wf = true ∧ (Instr.jnz 63).wf = true := by decide

theorem witness_StepRunsTheDecodedInstruction :
    (let s := startAt 63 [(63, 0x011)]
     s.ctrl = .running ∧ s.halted = false ∧ s.rom.romRead s.ip.toNat = some 0x011) ∧
    (let s := startAt 64 []
     s.ctrl = .running ∧ s.halted = false ∧ 64 ≤ s.ip.toNat) := by decide

theorem witness_PlacedInstructionRunsNext :
    (State.reset.rom.wf = true ∧ State.reset.ip.toNat < 64) ∧
    ((startAt 63 [(63, 1)]).rom.wf = true ∧ (startAt 63 [(63, 1)]).ip.toNat < 64) := by decide

theorem witness_StepOutsideRunning :
    haltedState.ctrl = .halted ∧ abortedState.ctrl = .aborted ∧ State.powerOn.ctrl = .preReset :=
  ⟨by decide, rfl, rfl⟩

/-- a fetch at 64, an invalid AluOp word, a li at 63 and at 62, a halt, and a word that runs on -/
theorem witness_StepEndsAsTheTransitionTableSays :
    (AtBoundary (startAt 64 []) ∧ (startAt 64 []).ctrl = .running ∧ 64 ≤ (startAt 64 []).ip.toNat) ∧
    (AtBoundary (start 1 2 3 4 [(0, 0x098)]) ∧ (decode ((start 1 2 3 4 [(0, 0x098)]).rom.get 0)).isInvalidAlu = true) ∧
    (AtBoundary (startAt 63 [(63, 0x011)]) ∧ (decode ((startAt 63 [(63, 0x011)]).rom.get 63)).isLi = true) ∧
    (AtBoundary (startAt 62 [(62, 0x011)]) ∧ (decode ((startAt 62 [(62, 0x011)]).rom.get 62)).isLi = true ∧
      (startAt 62 [(62, 0x011)]).ip.toNat < 63) ∧
    (AtBoundary State.reset ∧ (decode (State.reset.rom.get 0)).haltCause = some .halt) ∧
    (AtBoundary (start 0 0 0 0 [(0, 0x001)]) ∧ (decode ((start 0 0 0 0 [(0, 0x001)]).rom.get 0)).haltCause = none) := by
  refine ⟨?_, ?_, ?_, ?_, ?_, ?_⟩ <;> decide

/-- an unbounded counter, and a 4-bit counter at its last value -/
theorem witness_EveryCompletedStepCountsOneCycle :
    (let s := State.reset
     s.ctrl = .running ∧ s.halted = false ∧ step s = .next (after s) ∧ (after s).ctrl ≠ .aborted ∧ s.cycleBits = none) ∧
    (let s : State := { State.reset with cycleBits := some 4, cycleCount := 15 }
     s.ctrl = .running ∧ s.halted = false ∧ step s = .next (after s) ∧ (after s).ctrl ≠ .aborted ∧
       s.cycleBits = some 4 ∧ (after s).cycleCount = 0) :=
  ⟨⟨rfl, rfl, step_after (by decide), by decide, rfl⟩, ⟨rfl, rfl, step_after (by decide), by decide, rfl, by decide⟩⟩

/-- a branch not taken at 63 (V-E1) and a li at 62 (V-L8) -/
theorem witness_PointerReaches64OnlyAtTheEnd :
    (let s := startAt 63 [(63, 0x100)]
     s.ctrl = .running ∧ s.halted = false ∧ step s = .next (after s) ∧ (after s).ctrl ≠ .aborted ∧
       (after s).ip.toNat = 64) ∧
    (let s := startAt 62 [(62, 0x011), (63, 0x007)]
     s.ctrl = .running ∧ s.halted = false ∧ step s = .next (after s) ∧ (after s).ctrl ≠ .aborted ∧
       (after s).ip.toNat = 64) :=
  ⟨⟨rfl, rfl, step_after (by decide), by decide, by decide⟩, ⟨rfl, rfl, step_after (by decide), by decide, by decide⟩⟩

theorem witness_StrobeLatchesTheMaskedRegisters :
    (State.reset.aluOp.toNat < 6 ∧ State.reset.immMode = false) ∧
    (let s : State := { startAt 63 [(63, 0x1FF)] with aluOp := 5, immMode := true }
     s.aluOp.toNat < 6 ∧ s.immMode = true ∧ s.ip.toNat < 64) := by decide

theorem witness_StrobeReevaluatesTheAlu :
    State.reset.aluOp = aluCode .add ∧ ∃ t, writeEnable 0 State.reset = .ok t :=
  ⟨rfl, _, rfl⟩

theorem witness_AluOperationTable : (0 : Nat) < 8 ∧ (7 : Nat) < 8 ∧ AluOp.xor ≠ .add ∧ AluOp.passY ≠ .add := by decide

/-- the destination is the X operand, the Y operand, and neither -/
theorem witness_AluInstructions :
    (start 1 2 3 4 []).immMode = false ∧ (1 : BitVec 2) = (1 : BitVec 1).setWidth 2 ∧
      (3 : BitVec 2) = 2#2 + (1 : BitVec 1).setWidth 2 ∧
      ((0 : BitVec 2) ≠ (1 : BitVec 1).setWidth 2 ∧ (0 : BitVec 2) ≠ 2#2 + (1 : BitVec 1).setWidth 2) := by decide

theorem witness_JmpOverwritesThePointer : (0x040 : Word) &&& 0x1C0 = 0x040 ∧ (0x07F : Word) &&& 0x1C0 = 0x040 := by
  decide

/-- at dispatch ip is the payload's address: 63 is the last one inside, 64 the first outside -/
theorem witness_LoadImmediate :
    (let s : State := { startAt 63 [(63, 0x1FF)] with aluOp := 1 }
     s.aluOp = aluCode .xor ∧ s.rom.romRead s.ip.toNat = some 0x1FF ∧ s.ip.toNat < 64) ∧
    64 ≤ (startAt 64 []).ip.toNat := by decide

theorem witness_LiStepSkipsItsPayload :
    let s := startAt 62 [(62, 0x011), (63, 0x007)]
    AtBoundary s ∧ s.ctrl = .running ∧ s.ip.toNat < 63 ∧ decode (s.rom.get s.ip.toNat) = .li 1 ∧
      step s = .next (after s) :=
  ⟨by decide, rfl, by decide, by decide, step_after (by decide)⟩

/-- clc meets the hypotheses of all the frames; jc those of the last clause of the flags' writers -/
theorem witness_Frames :
    (let i := Instr.clc 0
     exec i State.reset = .next (ran i State.reset) ∧ (ran i State.reset).ctrl ≠ .aborted ∧
       i.dests.getLsbD (3 : BitVec 2).toNat = false ∧ i.isAlu = false ∧ i.isLi = false ∧
       State.reset.zero = decide (State.reset.hold = 0)) ∧
    (let i := Instr.jc 5
     exec i State.reset = .next (ran i State.reset) ∧ (ran i State.reset).ctrl ≠ .aborted ∧ i.isAlu = false ∧
       i.isLi = false ∧ i.isClc = false) ∧
    (let i := Instr.add 0 0 3
     exec i State.reset = .next (ran i State.reset) ∧ (ran i State.reset).ctrl ≠ .aborted ∧
       i.dests.getLsbD (2 : BitVec 2).toNat = false) :=
  ⟨⟨exec_ran _ _, by decide, by decide, rfl, rfl, by decide⟩, ⟨exec_ran _ _, by decide, rfl, rfl, rfl⟩,
    ⟨exec_ran _ _, by decide, by decide⟩⟩

/-- an instruction, a step that aborts its fetch, and each host operation but load -/
theorem witness_NoInstructionWritesTheRom :
    exec (.clc 0) State.reset = .next (ran (.clc 0) State.reset) ∧
    (step (startAt 64 [(3, 1)]) = .next (after (startAt 64 [(3, 1)])) ∧ (after (startAt 64 [(3, 1)])).ctrl = .aborted) ∧
    (∀ op ∈ [HostOp.reset, .step, .run 1, .readState], (∀ b, op ≠ .load b) ∧
      ∃ t, applyHost op State.reset = .next t) := by
  refine ⟨exec_ran _ _, ⟨step_after (by decide), by decide⟩, ?_⟩
  intro op h
  simp only [List.mem_cons, List.not_mem_nil, or_false] at h
  rcases h with rfl | rfl | rfl | rfl
  · exact ⟨fun _ => by simp, _, rfl⟩
  · exact ⟨fun _ => by simp, _, step_after (s := State.reset) (by decide)⟩
  · exact ⟨fun _ => by simp, _, runLoop_one (s := State.reset) rfl⟩
  · exact ⟨fun _ => by simp, _, rfl⟩

/-- a load is allowed before reset, when halted and when aborted, and not while Running; a cell that the image
completes, one it half supplies -/
theorem witness_Load :
    State.powerOn.ctrl ≠ .running ∧ haltedState.ctrl ≠ .running ∧ abortedState.ctrl ≠ .running ∧
      State.reset.ctrl = .running ∧ 2 * 0 + 1 < [0x11, 0x00, (0x05 : Byte)].length ∧
      ¬2 * 1 + 1 < [0x11, 0x00, (0x05 : Byte)].length :=
  ⟨by simp [State.powerOn], by decide, by simp [abortedState], rfl, by decide, by decide⟩

theorem witness_CanonicalRomsThatReadAlikeAreEqual :
    Memory.wf [(0, 1), (63, 511)] = true ∧
      ∀ a, a < 64 → Memory.romRead [(0, 1), (63, 511)] a = Memory.romRead [(0, 1), (63, 511)] a :=
  ⟨by decide, fun _ _ => rfl⟩

/-- runs that stand in Halted, in Aborted and in Running -/
theorem witness_RunReportsItsEnd :
    (haltedState.ctrl ≠ .preReset ∧ runLoop 1 haltedState = .next haltedState ∧ haltedState.ctrl = .halted) ∧
    (abortedState.ctrl ≠ .preReset ∧ runLoop 1 abortedState = .next abortedState ∧ abortedState.ctrl = .aborted) ∧
    (State.reset.ctrl ≠ .preReset ∧ runLoop 0 State.reset = .next State.reset ∧ State.reset.ctrl = .running) := by
  have hh : haltedState.ctrl = .halted := by decide
  have ha : abortedState.ctrl = .aborted := rfl
  exact ⟨⟨by simp [hh], by simp [runLoop, hh], hh⟩, ⟨by simp [ha], by simp [runLoop, ha], ha⟩, by decide, rfl, rfl⟩

/-- one cycle that halts, one that runs on -/
theorem witness_RunCountsTheWordsFetched :
    (let s := State.reset
     s.cycleBits = none ∧ s.ctrl = .running ∧ s.halted = false ∧ runLoop 1 s = .next (after s) ∧
       (after s).ctrl = .halted) ∧
    (let s := start 0 0 0 0 [(0, 0x001)]
     s.cycleBits = none ∧ s.ctrl = .running ∧ s.halted = false ∧ runLoop 1 s = .next (after s) ∧
       (after s).ctrl = .running) :=
  ⟨⟨rfl, rfl, rfl, runLoop_one rfl, by decide⟩, ⟨rfl, rfl, rfl, runLoop_one rfl, by decide⟩⟩

/-- two states with one rom that differ otherwise, each reset and run for a cycle to a halt -/
theorem witness_RunAfterReset :
    let s := State.reset
    let s' := haltedState
    s.rom = s'.rom ∧ s.cycleBits = s'.cycleBits ∧ s ≠ s' ∧
      runLoop 1 (hostReset s) = .next (after (hostReset s)) ∧
      runLoop 1 (hostReset s') = .next (after (hostReset s')) ∧
      (after (hostReset s)).ctrl = .halted ∧ (after (hostReset s')).ctrl = .halted ∧
      (after (hostReset s)).ctrl ≠ .aborted :=
  ⟨by decide, by decide, by decide, runLoop_one (by decide), runLoop_one (by decide), by decide, by decide, by decide⟩

/-- the halt after a reset, a second reset, and the halt after it -/
theorem witness_ResetAndRunAgain :
    let t := after (hostReset State.reset)
    runLoop 1 (hostReset State.reset) = .next t ∧ t.ctrl = .halted ∧
      runLoop 1 (hostReset t) = .next (after (hostReset t)) ∧ (after (hostReset t)).ctrl = .halted :=
  ⟨runLoop_one (by decide), by decide, runLoop_one (by decide), by decide⟩

theorem witness_TraceRecordsTheCycle :
    (let s := startAt 63 [(63, 0x011)]
     s.ctrl = .running ∧ s.halted = false ∧ step s = .next (after s) ∧ s.ip.toNat < 64) ∧
    (let s := startAt 64 []
     s.ctrl = .running ∧ s.halted = false ∧ step s = .next (after s) ∧ 64 ≤ s.ip.toNat) :=
  ⟨⟨rfl, rfl, step_after (by decide), by decide⟩, ⟨rfl, rfl, step_after (by decide), by decide⟩⟩

/-- nop at 62 is jmp 63; mov x0, x1 and mov x1, y1; clr of all registers at 62 -/
theorem witness_PseudoInstructions :
    (let s := startAt 62 [(62, 0x07F)]
     ReadyToFetch s ∧ (62 : BitVec 6).toNat = s.ip.toNat ∧ (AsmLine.nop 62).words = some [0x07F] ∧
       s.rom.romRead s.ip.toNat = some 0x07F) ∧
    State.reset.immMode = false ∧ (AsmLine.movX 0 1).words = some [0x0D0] ∧
      (AsmLine.movY 1 1).words = some [0x0B5] ∧
    (let s : State := { startAt 62 [(62, 0x01F)] with aluOp := 5 }
     ReadyToFetch s ∧ s.ip.toNat < 63 ∧ s.aluOp = aluCode .passY ∧ (AsmLine.clr 15).words = some [0x01F, 0] ∧
       s.rom.romRead s.ip.toNat = some 0x01F ∧ s.rom.romRead (s.ip.toNat + 1) = some 0) := by decide

/-- a snapshot does not see imm_mode or the model's own fields -/
theorem witness_ReadStateReturnsEveryField :
    hostRead { State.reset with immMode := true, cycleBits := some 4, freeIndex := 7 } = hostRead State.reset := rfl

theorem witness_StepKeepsTheBoundaryInvariant :
    AtBoundary (startAt 62 [(62, 0x011)]) ∧ step (startAt 62 [(62, 0x011)]) = .next (after (startAt 62 [(62, 0x011)])) :=
  ⟨by decide, step_after (by decide)⟩

theorem witness_ResetMeetsTheBoundaryInvariant : State.powerOn.rom.wf = true ∧ abortedState.rom.wf = true := ⟨rfl, rfl⟩

/-- each operation of the host from a state that meets the invariant -/
theorem witness_HostOperationsKeepTheBoundaryInvariant :
    (AtBoundary haltedState ∧ ∃ t, applyHost (.load [0x11]) haltedState = .next t) ∧
    (AtBoundary State.reset ∧ (∃ t, applyHost .reset State.reset = .next t) ∧
      (∃ t, applyHost .step State.reset = .next t) ∧ (∃ t, applyHost (.run 1) State.reset = .next t) ∧
      (∃ t, applyHost .readState State.reset = .next t)) :=
  ⟨⟨by decide, _, rfl⟩, by decide, ⟨_, rfl⟩, ⟨after State.reset, step_after (s := State.reset) (by decide)⟩,
    ⟨after State.reset, runLoop_one (s := State.reset) rfl⟩, ⟨_, rfl⟩⟩

end Sys2Proof.Tests
end

section
/-! SUPPORT. The register file's read mux and the write-enable strobe: O13 and O14 (10_state.md R13, R29). -/

namespace Sys2Proof.Machine

/-- A legal evaluation answers and leaves the registers. -/
theorem aluEval_keeps_regs {s : State} (hop : s.aluOp.toNat < 6) :
    ∃ t, aluEval s = .ok t ∧ t.regs = s.regs := by
  obtain ⟨op, hcode⟩ := exists_aluCode hop
  exact ⟨_, aluEval_of_code (op := op) (by simp [hcode]), rfl⟩

/-- The strobe with a legal alu_op and a source that can be read completes, and its registers are the old ones with
the source latched through the mask (R29). -/
theorem writeEnable_latches (m : BitVec 4) {s : State} {v : Byte} (hop : s.aluOp.toNat < 6)
    (hv : writeSource s = .ok v) :
    ∃ t, writeEnable m s = .ok t ∧
      ∀ i : BitVec 2, t.regs.get i = if m.getLsbD i.toNat then v else s.regs.get i := by
  obtain ⟨t, ht, hregs⟩ := aluEval_keeps_regs (s := { s with regs := s.regs.latch m v }) hop
  refine ⟨t, ?_, fun i => ?_⟩
  · simp only [writeEnable, hv, ht]
  · rw [hregs, Regs.get_latch]

/-- Settles O13: each bank and selector name one register index. -/
theorem bankedReadSelectsTheRegister : Obligations.BankedReadSelectsTheRegister := by
  intro r
  exact ⟨rfl, rfl, rfl, rfl⟩

/-- Settles O14: the source is the bus outside immediate mode and the cell at ip in it, which no mask changes; the
strobe latches it through the mask. -/
theorem strobeLatchesTheMaskedRegisters : Obligations.StrobeLatchesTheMaskedRegisters := by
  intro mask s hop
  constructor
  · intro himm
    exact writeEnable_latches mask hop (writeSource_bus himm)
  · intro himm hip
    have hcell : s.rom.romRead s.ip.toNat = some (s.rom.get s.ip.toNat) :=
      Memory.romRead_eq_some.2 ⟨hip, rfl⟩
    exact ⟨_, fun m => writeEnable_latches m hop (writeSource_imm himm hcell)⟩

end Sys2Proof.Machine
end

section
/-! SUPPORT. The host's load: O38 (20_memory.md R47). -/

namespace Sys2Proof.Machine

/-- A load outside Running answers the state with the image in place of its rom (R44, R48). -/
theorem hostLoad_of_not_running (b : List Byte) {s : State} (h : s.ctrl ≠ .running) :
    hostLoad b s = .next { s with rom := loadRom b } :=
  if_neg h

/-- Settles O38: the memory a load leaves is the image's, and no byte of the image can refuse it. -/
theorem loadChangesOnlyTheRom : Obligations.LoadChangesOnlyTheRom := by
  intro b s hctrl
  exact ⟨loadRom b, hostLoad_of_not_running b hctrl⟩

end Sys2Proof.Machine
end

section
/-! SUPPORT. The decoder's six classes: O1 and O2 (30_encoding.md R63 to R67). The first set bit from the top is the
power of two a word's value lies above, so each class is a range of values; a format's word lies in the range of its
class. -/

namespace Sys2Proof.Machine

/-- The first matching bit of R63 is set. -/
theorem getLsbD_of_top (w : Word) (i : Nat) (hle : 2 ^ i ≤ w.toNat) (hlt : w.toNat < 2 ^ (i + 1)) :
    w.getLsbD i = true :=
  Nat.testBit_of_two_pow_le_and_two_pow_add_one_gt hle hlt

/-- The bits above the first matching bit are clear. -/
theorem not_getLsbD_of_lt (w : Word) (i : Nat) (h : w.toNat < 2 ^ i) : ¬w.getLsbD i = true := by
  simp [BitVec.getLsbD, Nat.testBit_lt_two_pow h]

theorem extractLsb'_eq_quotient (w : Word) (start len : Nat) :
    w.extractLsb' start len = BitVec.ofNat len (w.toNat / 2 ^ start) :=
  congrArg (BitVec.ofNat len) (Nat.shiftRight_eq_div_pow ..)

theorem classify_condBranch {w : Word} (h : 256 ≤ w.toNat) :
    classify w =
      .condBranch (decide (w.toNat / 128 % 2 = 1)) (decide (w.toNat / 64 % 2 = 1)) (BitVec.ofNat 6 w.toNat) := by
  rw [classify, if_pos (getLsbD_of_top w 8 h w.isLt), BitVec.getLsbD, BitVec.getLsbD,
    Nat.testBit_eq_decide_div_mod_eq, Nat.testBit_eq_decide_div_mod_eq]
  rfl

theorem classify_aluOp {w : Word} (hle : 128 ≤ w.toNat) (hlt : w.toNat < 256) :
    classify w = .aluOp (BitVec.ofNat 1 (w.toNat / 64)) (BitVec.ofNat 1 (w.toNat / 32))
      (BitVec.ofNat 3 (w.toNat / 4)) (BitVec.ofNat 2 w.toNat) := by
  rw [classify, if_neg (not_getLsbD_of_lt w 8 hlt), if_pos (getLsbD_of_top w 7 hle hlt)]
  simp [extractLsb'_eq_quotient]

theorem classify_branch {w : Word} (hle : 64 ≤ w.toNat) (hlt : w.toNat < 128) :
    classify w = .branch (BitVec.ofNat 6 w.toNat) := by
  rw [classify, if_neg (not_getLsbD_of_lt w 8 (by omega)), if_neg (not_getLsbD_of_lt w 7 hlt),
    if_pos (getLsbD_of_top w 6 hle hlt)]
  rfl

theorem classify_reserved {w : Word} (hle : 32 ≤ w.toNat) (hlt : w.toNat < 64) :
    classify w = .reserved (BitVec.ofNat 5 w.toNat) := by
  rw [classify, if_neg (not_getLsbD_of_lt w 8 (by omega)), if_neg (not_getLsbD_of_lt w 7 (by omega)),
    if_neg (not_getLsbD_of_lt w 6 hlt), if_pos (getLsbD_of_top w 5 hle hlt)]
  rfl

theorem classify_loadImmediate {w : Word} (hle : 16 ≤ w.toNat) (hlt : w.toNat < 32) :
    classify w = .loadImmediate (BitVec.ofNat 4 w.toNat) := by
  rw [classify, if_neg (not_getLsbD_of_lt w 8 (by omega)), if_neg (not_getLsbD_of_lt w 7 (by omega)),
    if_neg (not_getLsbD_of_lt w 6 (by omega)), if_neg (not_getLsbD_of_lt w 5 hlt),
    if_pos (getLsbD_of_top w 4 hle hlt)]
  rfl

theorem classify_noOperand {w : Word} (h : w.toNat < 16) : classify w = .noOperand (BitVec.ofNat 3 w.toNat) := by
  rw [classify, if_neg (not_getLsbD_of_lt w 8 (by omega)), if_neg (not_getLsbD_of_lt w 7 (by omega)),
    if_neg (not_getLsbD_of_lt w 6 (by omega)), if_neg (not_getLsbD_of_lt w 5 (by omega)),
    if_neg (not_getLsbD_of_lt w 4 h)]
  rfl

/-- Settles O1: each class is the range of values its highest set bit bounds. -/
theorem classifyByHighestSetBit : Obligations.ClassifyByHighestSetBit := by
  intro w
  exact ⟨classify_condBranch, fun ⟨hle, hlt⟩ => classify_aluOp hle hlt, fun ⟨hle, hlt⟩ => classify_branch hle hlt,
    fun ⟨hle, hlt⟩ => classify_reserved hle hlt, fun ⟨hle, hlt⟩ => classify_loadImmediate hle hlt,
    classify_noOperand⟩

theorem toNat_wordOfNat {n : Nat} (h : n < 512) : (BitVec.ofNat 9 n : Word).toNat = n := by
  rw [BitVec.toNat_ofNat, Nat.mod_eq_of_lt h]

/-- A selector read as the parity of a quotient. -/
theorem selector_eq {b : Bool} {n : Nat} (h : n % 2 = b.toNat) : decide (n % 2 = 1) = b := by
  rw [h]
  cases b <;> rfl

/-- A field read as the low bits of a quotient. -/
theorem field_eq {len n : Nat} {x : BitVec len} (h : n % 2 ^ len = x.toNat) : BitVec.ofNat len n = x :=
  BitVec.eq_of_toNat_eq h

theorem classify_condBranch_format (inv sel : Bool) (t : BitVec 6) :
    classify (BitVec.ofNat 9 (256 + 128 * inv.toNat + 64 * sel.toNat + t.toNat)) = .condBranch inv sel t := by
  have hinv := inv.toNat_le
  have hsel := sel.toNat_le
  have ht := t.isLt
  have hw := toNat_wordOfNat (n := 256 + 128 * inv.toNat + 64 * sel.toNat + t.toNat) (by omega)
  rw [classify_condBranch (by omega), hw, selector_eq (b := inv) (by omega), selector_eq (b := sel) (by omega),
    field_eq (x := t) (by omega)]

theorem classify_aluOp_format (bx bY : BitVec 1) (op : BitVec 3) (d : BitVec 2) :
    classify (BitVec.ofNat 9 (128 + 64 * bx.toNat + 32 * bY.toNat + 4 * op.toNat + d.toNat)) =
      .aluOp bx bY op d := by
  have hbx := bx.isLt
  have hbY := bY.isLt
  have hop := op.isLt
  have hd := d.isLt
  have hw := toNat_wordOfNat (n := 128 + 64 * bx.toNat + 32 * bY.toNat + 4 * op.toNat + d.toNat) (by omega)
  rw [classify_aluOp (by omega) (by omega), hw, field_eq (x := bx) (by omega), field_eq (x := bY) (by omega),
    field_eq (x := op) (by omega), field_eq (x := d) (by omega)]

theorem classify_branch_format (t : BitVec 6) : classify (BitVec.ofNat 9 (64 + t.toNat)) = .branch t := by
  have ht := t.isLt
  have hw := toNat_wordOfNat (n := 64 + t.toNat) (by omega)
  rw [classify_branch (by omega) (by omega), hw, field_eq (x := t) (by omega)]

theorem classify_reserved_format (g : BitVec 5) : classify (BitVec.ofNat 9 (32 + g.toNat)) = .reserved g := by
  have hg := g.isLt
  have hw := toNat_wordOfNat (n := 32 + g.toNat) (by omega)
  rw [classify_reserved (by omega) (by omega), hw, field_eq (x := g) (by omega)]

/-- Settles O2: a format's word lies in the range of its class, and its fields are the quotients read there. -/
theorem formatsOfTheOneWordClasses : Obligations.FormatsOfTheOneWordClasses :=
  ⟨classify_condBranch_format, classify_aluOp_format, classify_branch_format, classify_reserved_format⟩

end Sys2Proof.Machine
end

section
/-! SUPPORT. The branches: O23 and O24 (41_control_flow.md R100 to R105, 30_encoding.md R66). -/

namespace Sys2Proof.Machine

/-- The target widened to the pointer is the target's value (R70). -/
theorem targetIp_eq_ofNat (t : BitVec 6) : targetIp t = BitVec.ofNat 7 t.toNat :=
  (BitVec.ofNat_toNat 7 t).symm

theorem branchTo_eq (t : BitVec 6) (s : State) : branchTo t s = { s with ip := BitVec.ofNat 7 t.toNat } := by
  rw [branchTo, targetIp_eq_ofNat]

/-- The branch of R100 for any invert and condition-select: taken on the selected flag XOR invert, else no change. -/
theorem condBranch_eq_ite (inv sel : Bool) (t : BitVec 6) (s : State) :
    condBranch inv sel t s =
      if Bool.xor (selectedFlag sel s) inv = true then { s with ip := BitVec.ofNat 7 t.toNat } else s := by
  rw [condBranch, branchTo_eq, branchTaken]

/-- The decoder's four conditional branches are the one branch at their invert and condition-select (R101 to R104). -/
theorem exec_condBranchInstr (inv sel : Bool) (t : BitVec 6) (s : State) :
    exec (condBranchInstr inv sel t) s = .next (condBranch inv sel t s) := by
  cases inv <;> cases sel <;> rfl

/-- Settles O23: the four instructions are the four (invert, condition-select) pairs of the one conditional branch. -/
theorem conditionalBranchTakenIffFlagXorInvert : Obligations.ConditionalBranchTakenIffFlagXorInvert := by
  intro t s
  have answer (inv sel : Bool) :=
    (exec_condBranchInstr inv sel t s).trans (congrArg Host.Outcome.next (condBranch_eq_ite inv sel t s))
  exact ⟨answer false false, answer false true, answer true false, answer true true⟩

theorem exec_jmp (t : BitVec 6) (s : State) : exec (.jmp t) s = .next { s with ip := BitVec.ofNat 7 t.toNat } :=
  congrArg Host.Outcome.next (branchTo_eq t s)

/-- The target lies below bit 6, so `0x040 | t` is a sum (R66). -/
theorem encode_jmp_toNat (t : BitVec 6) : (encode (.jmp t)).toNat = 64 + t.toNat := by
  have ht : t.toNat < 2 ^ 6 := t.isLt
  have hor := Nat.two_pow_add_eq_or_of_lt ht 1
  have hmod : t.toNat % 512 = t.toNat := Nat.mod_eq_of_lt (by omega)
  simp [encode, hmod, hor]

theorem decode_encode_jmp (t : BitVec 6) : decode (encode (.jmp t)) = .jmp t := by
  have ht := t.isLt
  have hword : encode (.jmp t) = BitVec.ofNat 9 (64 + t.toNat) :=
    BitVec.eq_of_toNat_eq (by rw [encode_jmp_toNat, toNat_wordOfNat (by omega)])
  rw [hword, decode, classify_branch_format]

/-- The match of R66 says that bits 8 and 7 are clear and bit 6 is set, so bit 6 is the first set one (R63). -/
theorem decode_of_jmp_match {w : Word} (h : w &&& 0x1C0 = 0x040) : decode w = .jmp (w.extractLsb' 0 6) := by
  have bit (i : Nat) := congrArg (BitVec.getLsbD · i) h
  have h8 : w.getLsbD 8 = false := by simpa using bit 8
  have h7 : w.getLsbD 7 = false := by simpa using bit 7
  have h6 : w.getLsbD 6 = true := by simpa using bit 6
  simp only [decode, classify, h8, h7, h6, Bool.false_eq_true, if_false, if_true]

/-- Settles O24: the target is the word's only field, read back by the decoder. -/
theorem jmpOverwritesThePointer : Obligations.JmpOverwritesThePointer := by
  intro t s
  exact ⟨exec_jmp t s, encode_jmp_toNat t, decode_encode_jmp t, fun _ h => ⟨_, decode_of_jmp_match h⟩⟩

end Sys2Proof.Machine
end

section
/-! SUPPORT. The decoder and the encoder are inverse to each other, and the disassembly: O3, O4, O5 and O6
(30_encoding.md R63 to R75). Each format's word decodes to its fields, one lemma per format. -/

namespace Sys2Proof.Machine

theorem decode_condBranchWord (inv sel : BitVec 1) (t : BitVec 6) :
    decode (condBranchWord inv sel t) = condBranchInstr (decide (inv = 1)) (decide (sel = 1)) t := by
  revert inv sel t; decide

theorem decode_aluWord (bx bY : BitVec 1) (op : BitVec 3) (d : BitVec 2) :
    decode (aluWord bx bY op d) = aluInstr bx bY op d := by
  revert bx bY op d; decide

theorem decode_encode_reserved (g : BitVec 5) : decode (encode (.reserved g)) = .reserved g := by
  revert g; decide

theorem decode_encode_li (m : BitVec 4) : decode (encode (.li m)) = .li m := by
  revert m; decide

theorem decode_noOperandWord (g : BitVec 1) (sel : BitVec 3) :
    decode (noOperandWord g sel) = noOperandInstr g sel := by
  revert g sel; decide

/-- Selectors 2 and 3 (R132). -/
theorem noOperandInstr_of_wf23 {g : BitVec 1} {sel : BitVec 3} (h : (Instr.noopInvalid23 g sel).wf = true) :
    noOperandInstr g sel = .noopInvalid23 g sel := by
  revert g sel; decide

/-- Selectors 4 to 7 (R132). -/
theorem noOperandInstr_of_wf47 {g : BitVec 1} {sel : BitVec 3} (h : (Instr.noopInvalid47 g sel).wf = true) :
    noOperandInstr g sel = .noopInvalid47 g sel := by
  revert g sel; decide

/-- Settles O4: the word of each instruction is of one format, whose fields are the instruction's. -/
theorem decodeOfEncodeIsTheInstruction : Obligations.DecodeOfEncodeIsTheInstruction := by
  intro i hwf
  cases i with
  | jc t => exact decode_condBranchWord 0 0 t
  | jz t => exact decode_condBranchWord 0 1 t
  | jnc t => exact decode_condBranchWord 1 0 t
  | jnz t => exact decode_condBranchWord 1 1 t
  | add bx bY d => exact decode_aluWord bx bY (aluCode .add) d
  | xor bx bY d => exact decode_aluWord bx bY (aluCode .xor) d
  | and bx bY d => exact decode_aluWord bx bY (aluCode .and) d
  | or bx bY d => exact decode_aluWord bx bY (aluCode .or) d
  | passx bx bY d => exact decode_aluWord bx bY (aluCode .passX) d
  | passy bx bY d => exact decode_aluWord bx bY (aluCode .passY) d
  | aluOp6 bx bY d => exact decode_aluWord bx bY 6#3 d
  | aluOp7 bx bY d => exact decode_aluWord bx bY 7#3 d
  | jmp t => exact decode_encode_jmp t
  | reserved g => exact decode_encode_reserved g
  | li m => exact decode_encode_li m
  | halt g => exact decode_noOperandWord g 0
  | clc g => exact decode_noOperandWord g 1
  | noopInvalid23 g sel => exact (decode_noOperandWord g sel).trans (noOperandInstr_of_wf23 hwf)
  | noopInvalid47 g sel => exact (decode_noOperandWord g sel).trans (noOperandInstr_of_wf47 hwf)

/-- Settles O3: the words are closed, and the decoder computes. -/
theorem wordsDecodeAsTheOpcodeMapSays : Obligations.WordsDecodeAsTheOpcodeMapSays := by
  unfold Obligations.WordsDecodeAsTheOpcodeMapSays
  decide

/-- The decoder keeps the selectors of its two invalid no-operand rows apart. -/
theorem decode_wf (w : Word) : (decode w).wf = true := by
  revert w; decide

theorem encode_decode (w : Word) : encode (decode w) = w := by
  revert w; decide

/-- Settles O5: the two directions, over the 512 words. -/
theorem encodeOfDecodeIsTheWord : Obligations.EncodeOfDecodeIsTheWord := fun w => ⟨decode_wf w, encode_decode w⟩

/-- The words without a mnemonic are those that are no valid instruction (R73, R75). -/
theorem mnemonic_decode_eq_word (w : Word) : (decode w).mnemonic = .word ↔ InvalidWord w := by
  revert w; decide

theorem disassemble_of_invalid {w : Word} (h : InvalidWord w) : disassemble w = .word w := by
  rw [disassemble, (mnemonic_decode_eq_word w).2 h]

/-- A valid word prints as its instruction, unless it is 0x008 or 0x009: a halt or a clc with the
ignored bit set (D20). -/
theorem disassemble_of_valid {w : Word} (hinv : ¬InvalidWord w) (h8 : w ≠ 0x008) (h9 : w ≠ 0x009) :
    disassemble w = .op (decode w) := by
  have hmnemonic : (decode w).mnemonic ≠ .word := mt (mnemonic_decode_eq_word w).1 hinv
  have hword := encode_decode w
  unfold disassemble
  cases hi : decode w with
  | halt g =>
    rw [hi] at hword
    rcases BitVec.eq_zero_or_eq_one g with rfl | rfl
    · rfl
    · exact absurd hword.symm h8
  | clc g =>
    rw [hi] at hword
    rcases BitVec.eq_zero_or_eq_one g with rfl | rfl
    · rfl
    · exact absurd hword.symm h9
  | aluOp6 | aluOp7 | reserved | noopInvalid23 | noopInvalid47 => exact absurd (congrArg Instr.mnemonic hi) hmnemonic
  | _ => rfl

/-- Settles O6: an invalid word is printed as itself, and a valid one as the instruction whose encoding it is. -/
theorem disassemblyAssemblesBack : Obligations.DisassemblyAssemblesBack := by
  refine ⟨rfl, rfl, fun w => ⟨disassemble_of_invalid, fun hinv h8 h9 => disassemble_of_valid hinv h8 h9, ?_⟩⟩
  by_cases h8 : w = 0x008
  · rw [h8]; rfl
  by_cases h9 : w = 0x009
  · rw [h9]; rfl
  rw [if_neg h8, if_neg h9]
  by_cases hinv : InvalidWord w
  · rw [disassemble_of_invalid hinv]; rfl
  · rw [disassemble_of_valid hinv h8 h9, AsmLine.words, encode_decode]

end Sys2Proof.Machine
end

section
/-! SUPPORT. The ALU function, the strobe and the ALU instructions: O15 to O22 (40_alu.md R80 to R93, 10_state.md R28
to R31). The six instructions are one at six codes, so their effect is one lemma over the operation. -/

namespace Sys2Proof.Machine

/-- Settles O21: a write is seen at its index only. -/
theorem registerWriteThenRead : Obligations.RegisterWriteThenRead := by
  intro r d i v
  exact ⟨Regs.get_set r d i v, rfl, rfl, rfl, rfl⟩

/-- Settles O15: the strobe is the evaluation of the state with the new registers. -/
theorem strobeReevaluatesTheAlu : Obligations.StrobeReevaluatesTheAlu := by
  intro mask s t op hop h
  obtain ⟨-, v, -, -, -, hv, -⟩ := writeEnable_ok h
  have heval := aluEval_of_code (s := { s with regs := s.regs.latch mask v }) (op := op) (by simp [hop])
  rw [writeEnable, hv] at h
  cases heval.symm.trans h
  rfl

/-- The sum, with its carry, as one pair (R81, R93). -/
theorem aluFn_add (a b : Byte) : aluFn .add a b = (a + b, decide (256 ≤ a.toNat + b.toNat)) := by
  simp [aluFn]

/-- Only add carries (R81). -/
theorem aluFn_carry_of_ne_add {op : AluOp} (a b : Byte) (h : op ≠ .add) : (aluFn op a b).2 = false := by
  cases op with
  | add => exact absurd rfl h
  | xor | and | or | passX | passY => rfl

/-- Settles O16: the sum is addition of bit vectors, the bitwise operations are theirs, and the passes copy. -/
theorem aluOperationTable : Obligations.AluOperationTable := by
  refine ⟨fun a b => ?_, fun a b k _ => ?_, fun op a b => aluFn_carry_of_ne_add a b, by decide⟩
  · rw [aluFn_add]
    exact ⟨BitVec.toNat_add a b, decide_eq_true_iff⟩
  · exact ⟨BitVec.getLsbD_xor, BitVec.getLsbD_and, BitVec.getLsbD_or, rfl, rfl⟩

/-- The six ALU instructions are the one sequence of R84 at their codes. -/
theorem exec_aluInstr (op : AluOp) (bx bY : BitVec 1) (d : BitVec 2) (s : State) :
    exec (aluInstr bx bY (aluCode op) d) s = .next (settle s (aluSequence bx bY (aluCode op) d s)) := by
  cases op <;> rfl

/-- An ALU instruction writes its result `r` to the destination and the bus, and leaves the second evaluation `e`, in
which `r` stands for the operand that is the destination (R84, R85). -/
theorem exec_aluInstr_effect (op : AluOp) {bx bY : BitVec 1} {d : BitVec 2} {s : State} (himm : s.immMode = false)
    {r : Byte} {e : Byte × Bool} (hr : (aluFn op (s.regs.read .x bx) (s.regs.read .y bY)).1 = r)
    (he : aluFn op (if d = bx.setWidth 2 then r else s.regs.read .x bx)
      (if d = 2#2 + bY.setWidth 2 then r else s.regs.read .y bY) = e) :
    exec (aluInstr bx bY (aluCode op) d) s = .next { s with
      regs := s.regs.set d r, bankX := bx, bankY := bY, aluOp := aluCode op, bus := r
      hold := e.1, carry := e.2, zero := zeroFlag e.1 } := by
  rw [exec_aluInstr, aluSequence_of_code op bx bY d himm, settle_ok]
  simp only [hr, Regs.read_x_set, Regs.read_y_set, he]

/-- Settles O17: both evaluations are sums. -/
theorem addWritesTheSumAndReevaluates : Obligations.AddWritesTheSumAndReevaluates := by
  rintro bx bY d s himm a b a2 b2 rfl rfl rfl rfl
  exact exec_aluInstr_effect .add himm (by rw [aluFn_add]) (aluFn_add ..)

/-- The second exclusive or cancels the operand that the first one overwrote (R87). -/
theorem aluFn_xor_again {p q : Prop} [Decidable p] [Decidable q] (hpq : ¬(p ∧ q)) (a b : Byte) :
    aluFn .xor (if p then a ^^^ b else a) (if q then a ^^^ b else b) =
      (if p then a else if q then b else a ^^^ b, false) := by
  by_cases hp : p
  · have hq : ¬q := fun hq => hpq ⟨hp, hq⟩
    simp only [aluFn, hp, hq, if_true, if_false, BitVec.xor_assoc, BitVec.xor_self, BitVec.xor_zero]
  · by_cases hq : q
    · simp only [aluFn, hp, hq, if_true, if_false, ← BitVec.xor_assoc, BitVec.xor_self, BitVec.zero_xor]
    · simp only [aluFn, hp, hq, if_false]

/-- Settles O18: no destination is both operands. -/
theorem xorWritesAndReevaluates : Obligations.XorWritesAndReevaluates := by
  rintro bx bY d s himm a b h rfl rfl rfl
  have hone : ¬(d = bx.setWidth 2 ∧ d = 2#2 + bY.setWidth 2) :=
    fun ⟨hx, hy⟩ => Bank.index_x_ne_y bx bY (hx.symm.trans hy)
  exact exec_aluInstr_effect .xor himm rfl (aluFn_xor_again hone _ _)

/-- and, or and the passes give the same result again when it replaces an operand (R88 to R91). -/
theorem aluFn_again {op : AluOp} (hadd : op ≠ .add) (hxor : op ≠ .xor) (p q : Prop) [Decidable p] [Decidable q]
    (a b : Byte) :
    aluFn op (if p then (aluFn op a b).1 else a) (if q then (aluFn op a b).1 else b) =
      ((aluFn op a b).1, false) := by
  cases op with
  | add => exact absurd rfl hadd
  | xor => exact absurd rfl hxor
  | and => split <;> split <;> simp [aluFn, BitVec.and_assoc, ← BitVec.and_assoc a a]
  | or => split <;> split <;> simp [aluFn, BitVec.or_assoc, ← BitVec.or_assoc a a]
  | passX | passY => simp [aluFn]

/-- Settles O19: the second evaluation gives the first result again. -/
theorem andOrWriteTheResult : Obligations.AndOrWriteTheResult := by
  rintro bx bY d s himm a b rfl rfl
  exact ⟨exec_aluInstr_effect .and himm rfl (aluFn_again (by decide) (by decide) ..),
    exec_aluInstr_effect .or himm rfl (aluFn_again (by decide) (by decide) ..)⟩

/-- Settles O20: the second evaluation copies the operand again. -/
theorem passWritesTheOperand : Obligations.PassWritesTheOperand := by
  rintro bx bY d s himm a b rfl rfl
  exact ⟨exec_aluInstr_effect .passX himm rfl (aluFn_again (by decide) (by decide) ..),
    exec_aluInstr_effect .passY himm rfl (aluFn_again (by decide) (by decide) ..)⟩

/-- An invalid code fails at the first evaluation (R92). -/
theorem exec_of_isInvalidAlu {i : Instr} (h : i.isInvalidAlu = true) (s : State) :
    exec i s = .next (abort .aluOp s) := by
  have invalid (bx bY : BitVec 1) (op : BitVec 3) (d : BitVec 2) (hop : 6 ≤ op.toNat) :
      settle s (aluSequence bx bY op d s) = abort .aluOp s := by
    rw [aluSequence_invalid hop, settle_error]
  cases i with
  | aluOp6 bx bY d => exact congrArg Host.Outcome.next (invalid bx bY 6#3 d (by decide))
  | aluOp7 bx bY d => exact congrArg Host.Outcome.next (invalid bx bY 7#3 d (by decide))
  | _ => cases h

theorem abort_abortedWith (why : AbortReason) (s : State) : AbortedWith why (abort why s) := ⟨rfl, rfl, rfl, rfl⟩

/-- Settles O22: the aborted state keeps the rom. -/
theorem invalidAluOpsAbort : Obligations.InvalidAluOpsAbort := by
  intro bx bY d s
  exact ⟨⟨_, exec_of_isInvalidAlu rfl s, abort_abortedWith _ s, rfl⟩,
    ⟨_, exec_of_isInvalidAlu rfl s, abort_abortedWith _ s, rfl⟩⟩

end Sys2Proof.Machine
end

section
/-! SUPPORT. The load immediate at its dispatch, and the words that halt: O25, O27, O28 and O29 to O31
(42_load_immediate.md R120 to R123, 43_no_operand_and_reserved.md R130 to R133). -/

namespace Sys2Proof.Machine

/-- Settles O25: the payload's low byte is latched, and the sequence evaluates on the new registers. -/
theorem liWritesTheMaskAndReevaluates : Obligations.LiWritesTheMaskAndReevaluates := by
  rintro m s op p hop hp r rfl
  refine ⟨?_, Regs.get_latch s.regs m _⟩
  rw [BitVec.ofNat_toNat]
  exact congrArg (fun y => Host.Outcome.next (settle s y)) (loadSequence_of_code op m hop hp)

theorem Memory.romRead_inside (m : Memory) {a : Nat} (h : a < 64) : m.romRead a = some (m.get a) := if_pos h

/-- Settles O27: an empty mask latches nothing. -/
theorem liWithEmptyMaskRefreshesTheFlags : Obligations.LiWithEmptyMaskRefreshesTheFlags := by
  intro s op hop hip
  exact (liWritesTheMaskAndReevaluates 0 s op _ hop (Memory.romRead_inside s.rom hip) s.regs rfl).1

theorem exec_li_outside (m : BitVec 4) {s : State} (h : 64 ≤ s.ip.toNat) :
    exec (.li m) s = .next (abort .immRange s) :=
  congrArg (fun y => Host.Outcome.next (settle s y)) (loadSequence_outside h)

/-- Settles O28: the aborted state keeps the rom. -/
theorem liOutsideTheRomAborts : Obligations.LiOutsideTheRomAborts := by
  intro m s h
  exact ⟨_, exec_li_outside m h, abort_abortedWith _ s, rfl⟩

/-- The words that halt only enter Halted, each with its cause (R130, R132, R133). -/
theorem exec_of_haltCause {i : Instr} {c : HaltCause} (h : i.haltCause = some c) (s : State) :
    exec i s = .next (haltWith c s) := by
  cases i with
  | halt g | reserved g => cases h; rfl
  | noopInvalid23 g sel | noopInvalid47 g sel => cases h; rfl
  | _ => cases h

/-- Settles O29: halt's cause is HALT. -/
theorem haltEntersHalted : Obligations.HaltEntersHalted := fun g s => exec_of_haltCause (i := .halt g) rfl s

/-- Settles O30: the arm of clc is that update. -/
theorem clcClearsCarryOnly : Obligations.ClcClearsCarryOnly := fun _ _ => rfl

/-- Settles O31: the causes are those of the fault-halts. -/
theorem invalidWordsFaultHalt : Obligations.InvalidWordsFaultHalt := by
  intro g5 g sel s
  exact ⟨exec_of_haltCause (i := .reserved g5) rfl s, exec_of_haltCause (i := .noopInvalid23 g sel) rfl s,
    exec_of_haltCause (i := .noopInvalid47 g sel) rfl s⟩

end Sys2Proof.Machine
end

section
/-! SUPPORT. One step: the fetch, the placed instruction, how a step ends, its cycle and its pointer: O7 to O12 and
O26 (30_encoding.md R62, 70_reset_and_hazards.md R174 to R176, 60_exceptions.md R145). -/

namespace Sys2Proof.Machine

theorem step_inside {s : State} (hr : s.ctrl = .running) (hh : s.halted = false) (hip : s.ip.toNat < 64) :
    step s = exec (decode (s.rom.get s.ip.toNat)) (advance s) := by
  simp only [step, issue_running hr hh, fetch_inside hip]

theorem step_outside {s : State} (hr : s.ctrl = .running) (hh : s.halted = false) (hip : 64 ≤ s.ip.toNat) :
    step s = .next (abort .fetchRange s) := by
  simp only [step, issue_running hr hh, fetch_outside hip]

theorem step_stopped {s : State} (h : s.ctrl = .halted ∨ s.ctrl = .aborted) : step s = .next s := by
  rcases h with h | h
  · simp only [step, issue_halted h]
  · simp only [step, issue_aborted h]

/-- A step outside PreReset always answers (R174, R175). -/
theorem step_answers {s : State} (h : s.ctrl ≠ .preReset) : ∃ t, step s = .next t := by
  rcases issue_cases s with ⟨hp, -⟩ | ⟨-, -, hi⟩ | ⟨-, -, -, hi⟩ | ⟨-, -, -, hi⟩
  · exact absurd hp h
  · exact ⟨s, by simp only [step, hi]⟩
  · exact ⟨_, by simp only [step, hi]; rfl⟩
  · obtain ⟨t, ht, -⟩ := exec_cases (decode (s.rom.get s.ip.toNat)) (advance s)
    exact ⟨t, by simp only [step, hi, ht]⟩

/-- Settles O7: the dispatched state is the advanced one, and the fetch outside the ROM is the abort. -/
theorem stepRunsTheDecodedInstruction : Obligations.StepRunsTheDecodedInstruction := by
  intro s hr hh
  refine ⟨fun w hw => ?_, fun hip => ⟨_, step_outside hr hh hip, abort_abortedWith _ s⟩⟩
  obtain ⟨hip, rfl⟩ := Memory.romRead_eq_some.1 hw
  rw [step_inside hr hh hip, advance]
  cases hb : s.cycleBits <;> rfl

/-- Settles O9: the gate issues nothing there. -/
theorem stepOutsideRunning : Obligations.StepOutsideRunning := by
  intro s
  refine ⟨fun h => ?_, fun h => by simp only [step, issue_preReset h]⟩
  have hidle : issue s = .idle := h.elim issue_halted issue_aborted
  simp only [hostStep, step_stopped h, stepReport, hidle, and_self]

/-- The low 9 bits of a number are those of its two low bytes (R44, R45). -/
theorem cellOfBytes_ofNat (n : Nat) :
    cellOfBytes (BitVec.ofNat 8 n) (BitVec.ofNat 8 (n / 2 ^ 8)) = BitVec.ofNat 9 n := by
  apply BitVec.eq_of_toNat_eq
  simp only [cellOfBytes, BitVec.toNat_ofNat]
  omega

theorem tableCell_zero (nbits w : Nat) : tableCell nbits w 0 = BitVec.ofNat 9 (w % 2 ^ nbits) :=
  cellOfBytes_ofNat _

theorem decodeTableWord_eq (nbits w : Nat) :
    decodeTableWord nbits w = some (decode (BitVec.ofNat 9 (w % 2 ^ nbits))) :=
  congrArg (fun c => some (decode c)) (cellOfBytes_ofNat _)

/-- The first placed cell is read back; the second one is another cell. -/
theorem placeCells_get {m : Memory} (hm : m.wf = true) {a : Nat} (ha : a < 64) (nbits w : Nat) :
    (placeCells m a nbits w).get a = tableCell nbits w 0 := by
  have hfirst : (m.set a (tableCell nbits w 0)).get a = tableCell nbits w 0 := by
    rw [Memory.get_set_from a a _ hm, if_pos rfl]
  unfold placeCells
  split
  · rw [Memory.get_set_from (a + 1) a _ (Memory.wf_set _ hm ha), if_neg (by omega), hfirst]
  · exact hfirst

/-- Settles O8: the placed cell is the table word's first one, and the step fetches it. -/
theorem placedInstructionRunsNext : Obligations.PlacedInstructionRunsNext := by
  intro s nbits w hwf hip
  have hplace : placeIp s = s.ip := if_pos hip
  have hrom : (s.withFetchWord nbits w).rom = placeCells s.rom s.ip.toNat nbits w := by
    rw [← hplace]; rfl
  have hip' : (s.withFetchWord nbits w).ip = s.ip := hplace
  refine ⟨_, decodeTableWord_eq nbits w, rfl, ?_, ?_⟩
  · rw [step_inside rfl rfl (by rwa [hip']), hrom, hip', placeCells_get hwf hip, tableCell_zero]
  · rw [hrom]
    exact placeCells_wf hwf hip nbits w

/-- The two states agree on ctrl and the three fields that R23 ties to it. -/
abbrev SameController (s t : State) : Prop :=
  t.ctrl = s.ctrl ∧ t.halted = s.halted ∧ t.haltCause = s.haltCause ∧ t.abortReason = s.abortReason

/-- A word that neither aborts nor halts runs on: it leaves the controller alone (R145, R170). -/
theorem exec_runs_on {i : Instr} {s : State} (himm : s.immMode = false) (hop : s.aluOp.toNat < 6)
    (halu : i.isInvalidAlu = false) (hli : i.isLi = true → s.ip.toNat < 64) (hc : i.haltCause = none) :
    ∃ t, exec i s = .next t ∧ SameController s t := by
  have branch (inv sel : Bool) (a : BitVec 6) :
      ∃ t, exec (condBranchInstr inv sel a) s = .next t ∧ SameController s t :=
    ⟨_, exec_condBranchInstr inv sel a s, by rw [condBranch_eq]; exact ⟨rfl, rfl, rfl, rfl⟩⟩
  have alu (op : AluOp) (bx bY : BitVec 1) (d : BitVec 2) :
      ∃ t, exec (aluInstr bx bY (aluCode op) d) s = .next t ∧ SameController s t :=
    ⟨_, exec_aluInstr_effect op himm rfl rfl, rfl, rfl, rfl, rfl⟩
  cases i with
  | jc a => exact branch false false a
  | jz a => exact branch false true a
  | jnc a => exact branch true false a
  | jnz a => exact branch true true a
  | jmp a => exact ⟨_, exec_jmp a s, rfl, rfl, rfl, rfl⟩
  | add bx bY d => exact alu .add bx bY d
  | xor bx bY d => exact alu .xor bx bY d
  | and bx bY d => exact alu .and bx bY d
  | or bx bY d => exact alu .or bx bY d
  | passx bx bY d => exact alu .passX bx bY d
  | passy bx bY d => exact alu .passY bx bY d
  | li m =>
    obtain ⟨op, hcode⟩ := exists_aluCode hop
    have hp := Memory.romRead_inside s.rom (hli rfl)
    exact ⟨_, (liWritesTheMaskAndReevaluates m s op _ hcode hp _ rfl).1, rfl, rfl, rfl, rfl⟩
  | clc g => exact ⟨_, clcClearsCarryOnly g s, rfl, rfl, rfl, rfl⟩
  | aluOp6 | aluOp7 => cases halu
  | halt | reserved | noopInvalid23 | noopInvalid47 => cases hc

theorem exists_li_of_isLi {i : Instr} (h : i.isLi = true) : ∃ m, i = .li m := by
  cases i with
  | li m => exact ⟨m, rfl⟩
  | _ => cases h

/-- The invariant of a cycle boundary, in the one controller state that runs (R15, R20, R23, R25, R26). -/
theorem atBoundary_running {s : State} (hr : s.ctrl = .running) :
    AtBoundary s ↔ s.rom.wf = true ∧ (s.halted = false ∧ s.haltCause = .none ∧ s.abortReason = .none) ∧
      s.immMode = false ∧ CycleInRange s ∧ s.aluOp.toNat < 6 ∧ s.ip.toNat ≤ 64 := by
  simp [AtBoundary, ControllerConsistent, DatapathLegal, hr]

theorem atBoundary_of_running {s : State} (hr : s.ctrl = .running) (hwf : s.rom.wf = true)
    (hctrl : s.halted = false ∧ s.haltCause = .none ∧ s.abortReason = .none) (himm : s.immMode = false)
    (hcycle : CycleInRange s) (hop : s.aluOp.toNat < 6) (hip : s.ip.toNat ≤ 64) : AtBoundary s :=
  (atBoundary_running hr).2 ⟨hwf, hctrl, himm, hcycle, hop, hip⟩

/-- Settles O10: each word's end is that of its dispatch in the advanced state. -/
theorem stepEndsAsTheTransitionTableSays : Obligations.StepEndsAsTheTransitionTableSays := by
  intro s hb hr
  obtain ⟨-, ⟨hh, hcause, hreason⟩, himm, -, hop, -⟩ := (atBoundary_running hr).1 hb
  by_cases hip : s.ip.toNat < 64
  · have hsucc : (advance s).ip.toNat = s.ip.toNat + 1 := ip_succ hip
    obtain ⟨t, ht, -⟩ := exec_cases (decode (s.rom.get s.ip.toNat)) (advance s)
    refine ⟨t, (step_inside hr hh hip).trans ht, fun h => absurd hip (by omega), ?_⟩
    rintro i - rfl
    refine ⟨fun halu => ?_, fun hli h63 => ?_, fun c hc => ?_, fun halu hli hc => ?_⟩
    · cases ht.symm.trans (exec_of_isInvalidAlu halu (advance s))
      exact abort_abortedWith _ _
    · obtain ⟨m, hm⟩ := exists_li_of_isLi hli
      cases (hm ▸ ht).symm.trans (exec_li_outside m (by omega))
      exact abort_abortedWith _ _
    · cases ht.symm.trans (exec_of_haltCause hc (advance s))
      exact ⟨rfl, rfl, rfl, hreason⟩
    · have hin : (decode (s.rom.get s.ip.toNat)).isLi = true → (advance s).ip.toNat < 64 := by
        intro h
        have := hli h
        omega
      obtain ⟨u, hu, hctrl, hhalted, hcause', hreason'⟩ := exec_runs_on (s := advance s) himm hop halu hin hc
      cases ht.symm.trans hu
      exact ⟨hctrl.trans hr, hhalted.trans hh, hcause'.trans hcause, hreason'.trans hreason⟩
  · have hip : 64 ≤ s.ip.toNat := by omega
    exact ⟨_, step_outside hr hh hip, fun _ => abort_abortedWith _ s, fun i h => absurd hip (by omega)⟩

/-- No instruction that completes counts a cycle: the fetch did (R62). -/
theorem exec_cycleCount {i : Instr} {s t : State} (h : exec i s = .next t) (hna : t.ctrl ≠ .aborted) :
    t.cycleCount = s.cycleCount := by
  rcases exec_effect h hna with ⟨bx, bY, op, d, v, b, r, c, z, -, -, rfl⟩ | ⟨m, v, r, c, z, -, rfl⟩ | ⟨g, -, rfl⟩ |
    ⟨-, -, -, ⟨p, rfl⟩ | ⟨c, -, rfl⟩⟩ <;> rfl

theorem step_cycleCount {s t : State} (hr : s.ctrl = .running) (hh : s.halted = false) (h : step s = .next t)
    (hna : t.ctrl ≠ .aborted) : t.cycleCount = nextCycle s.cycleBits s.cycleCount := by
  rcases step_running hr hh h with ⟨-, rfl⟩ | ⟨-, hexec⟩
  · exact absurd rfl hna
  · exact exec_cycleCount hexec hna

/-- Settles O11: the fetch counts, in either width of the counter. -/
theorem everyCompletedStepCountsOneCycle : Obligations.EveryCompletedStepCountsOneCycle := by
  intro s t hr hh h hna
  have hcount := step_cycleCount hr hh h hna
  exact ⟨fun hb => by rw [hcount, hb]; rfl, fun b hb => by rw [hcount, hb]; rfl⟩

/-- What an instruction that completes does to the pointer: li skips its payload, a taken branch writes a target, and
every other word leaves it (R20, R100, R105, R120). -/
theorem exec_pointer {i : Instr} {s t : State} (h : exec i s = .next t) (hna : t.ctrl ≠ .aborted) :
    (i.isLi = true ∧ s.ip.toNat < 64 ∧ t.ip = s.ip + 1) ∨ t.ip.toNat < 64 ∨
      (t.ip = s.ip ∧ i.isLi = false ∧ ∀ a, i ≠ .jmp a) := by
  have branch (inv sel : Bool) (a : BitVec 6) (ht : exec (condBranchInstr inv sel a) s = .next t) :
      t.ip.toNat < 64 ∨ (t.ip = s.ip ∧ (condBranchInstr inv sel a).isLi = false ∧
        ∀ b, condBranchInstr inv sel a ≠ .jmp b) := by
    cases (exec_condBranchInstr inv sel a s).symm.trans ht
    rw [condBranch]
    split
    · exact .inl ((targetIp_toNat a).trans_lt a.isLt)
    · exact .inr ⟨rfl, by cases inv <;> cases sel <;> rfl, by cases inv <;> cases sel <;> simp [condBranchInstr]⟩
  have payload (m : BitVec 4) (hi : i = .li m) : s.ip.toNat < 64 := by
    by_contra hout
    rw [hi, exec_li_outside m (Nat.le_of_not_lt hout)] at h
    cases h
    exact hna rfl
  rcases exec_effect h hna with ⟨bx, bY, op, d, v, b, r, c, z, halu, -, rfl⟩ | ⟨m, v, r, c, z, rfl, rfl⟩ |
    ⟨g, rfl, rfl⟩ | ⟨halu, hli, hclc, -⟩
  · refine .inr (.inr ⟨rfl, ?_, by rintro a rfl; cases halu⟩)
    cases i with
    | li m => cases halu
    | _ => rfl
  · exact .inl ⟨rfl, payload m rfl, rfl⟩
  · exact .inr (.inr ⟨rfl, rfl, by simp⟩)
  · cases i with
    | jc a => exact .inr (branch false false a h)
    | jz a => exact .inr (branch false true a h)
    | jnc a => exact .inr (branch true false a h)
    | jnz a => exact .inr (branch true true a h)
    | jmp a =>
      cases h
      exact .inr (.inl ((targetIp_toNat a).trans_lt a.isLt))
    | halt | reserved | noopInvalid23 | noopInvalid47 =>
      cases (exec_of_haltCause rfl s).symm.trans h
      exact .inr (.inr ⟨rfl, rfl, by simp⟩)
    | li => cases hli
    | clc => cases hclc
    | _ => cases halu

/-- Settles O12: after the fetch the pointer is at most 64, and only a li adds to it again. -/
theorem pointerReaches64OnlyAtTheEnd : Obligations.PointerReaches64OnlyAtTheEnd := by
  intro s t hr hh h hna
  rcases step_running hr hh h with ⟨-, rfl⟩ | ⟨hip, hexec⟩
  · exact absurd rfl hna
  have hsucc : (advance s).ip.toNat = s.ip.toNat + 1 := ip_succ hip
  rcases exec_pointer hexec hna with ⟨hli, hin, ht⟩ | hlt | ⟨ht, hli, hjmp⟩
  · have hip2 : t.ip.toNat = s.ip.toNat + 2 := by rw [ht, ip_succ hin, hsucc]
    refine ⟨by omega, fun h64 => .inl ?_⟩
    have h62 : s.ip.toNat = 62 := by omega
    exact ⟨h62, h62 ▸ hli⟩
  · exact ⟨by omega, fun h64 => absurd hlt (by omega)⟩
  · have hip1 : t.ip.toNat = s.ip.toNat + 1 := by rw [ht, hsucc]
    refine ⟨by omega, fun h64 => .inr ?_⟩
    have h63 : s.ip.toNat = 63 := by omega
    exact ⟨h63, h63 ▸ hli, h63 ▸ hjmp⟩

/-- Settles O26: the dispatch of the li in the advanced state, whose pointer names the payload. -/
theorem liStepSkipsItsPayload : Obligations.LiStepSkipsItsPayload := by
  intro s t m hb hr hip hdec h
  obtain ⟨-, ⟨hh, -, -⟩, -, -, hop, -⟩ := (atBoundary_running hr).1 hb
  obtain ⟨op, hcode⟩ := exists_aluCode hop
  have hsucc : (advance s).ip.toNat = s.ip.toNat + 1 := ip_succ (by omega)
  have hp : (advance s).rom.romRead (advance s).ip.toNat = some (s.rom.get (s.ip.toNat + 1)) := by
    rw [hsucc]
    exact Memory.romRead_inside s.rom (by omega)
  obtain ⟨hexec, hregs⟩ := liWritesTheMaskAndReevaluates m (advance s) op _ hcode hp _ rfl
  rw [step_inside hr hh (by omega), hdec, hexec] at h
  cases h
  exact ⟨by rw [ip_succ (by omega), hsucc], hr, rfl, hregs⟩

end Sys2Proof.Machine
end

section
/-! SUPPORT. The reset table: O37 (10_state.md R34, 70_reset_and_hazards.md R172). -/

namespace Sys2Proof.Machine

theorem Regs.latch_all (r : Regs) (v : Byte) : r.latch 0b1111 v = ⟨v, v, v, v⟩ := rfl

theorem Regs.read_zeros (b : Bank) (sel : BitVec 1) : Regs.read ⟨0, 0, 0, 0⟩ b sel = 0 := by
  simp [Regs.read, Regs.get]

theorem aluFn_add_zero : aluFn .add 0 0 = (0, false) := by decide

/-- The reset table of R34: the strobe of zeros leaves zeros, of which the sum is 0 without a carry (R172). -/
theorem hostReset_eq (s : State) : hostReset s = { State.reset with
    rom := s.rom, cycleBits := s.cycleBits, freeIndex := s.freeIndex } := by
  simp only [hostReset, resetSequence, writeEnable]
  rw [writeSource_bus rfl]
  simp only [Regs.latch_all]
  rw [aluEval_of_code (op := .add) rfl]
  simp only [Regs.read_zeros, aluFn_add_zero]
  rfl

/-- Settles O37: reset leaves the table over the rom and the parameters, and before the first reset these are
State.reset's. -/
theorem resetLeavesTheResetTable : Obligations.ResetLeavesTheResetTable :=
  ⟨hostReset_eq State.powerOn, hostReset_eq⟩

end Sys2Proof.Machine
end

section
/-! SUPPORT. What no instruction does, and the frames of the registers, the selectors, the bus and the flags: O32 to
O36 (10_state.md R11 to R19, 20_memory.md R42, 60_exceptions.md R142). -/

namespace Sys2Proof.Machine

/-- The two states hold the same rom, and the same parameter CYCLE_BITS. -/
abbrev SameParameters (s t : State) : Prop := t.rom = s.rom ∧ t.cycleBits = s.cycleBits

theorem settle_aluSequence_parameters (bx bY : BitVec 1) (op : BitVec 3) (d : BitVec 2) (s : State) :
    SameParameters s (settle s (aluSequence bx bY op d s)) := by
  cases h : aluSequence bx bY op d s with
  | error w => exact ⟨rfl, rfl⟩
  | ok t =>
    obtain ⟨-, v, b, r, c, z, rfl⟩ := aluSequence_ok h
    exact ⟨rfl, rfl⟩

theorem settle_loadSequence_parameters (m : BitVec 4) (s : State) :
    SameParameters s (settle s (loadSequence m s)) := by
  cases h : loadSequence m s with
  | error w => exact ⟨rfl, rfl⟩
  | ok t =>
    obtain ⟨-, -, v, r, c, z, rfl⟩ := loadSequence_ok h
    exact ⟨rfl, rfl⟩

/-- No instruction writes the rom or CYCLE_BITS, one that aborts among them (R42, R142). -/
theorem exec_parameters {i : Instr} {s t : State} (h : exec i s = .next t) : SameParameters s t := by
  obtain ⟨u, hu, hcases⟩ := exec_cases i s
  cases hu.symm.trans h
  rcases hcases with ⟨p, rfl, -⟩ | ⟨bx, bY, op, d, rfl⟩ | ⟨m, rfl⟩ | ⟨c, -, rfl⟩ | rfl
  · exact ⟨rfl, rfl⟩
  · exact settle_aluSequence_parameters bx bY op d s
  · exact settle_loadSequence_parameters m s
  · exact ⟨rfl, rfl⟩
  · exact ⟨rfl, rfl⟩

/-- What a step that answers can be: none at all, an aborted fetch, or the dispatch of the fetched cell. -/
theorem step_cases {s t : State} (h : step s = .next t) :
    t = s ∨ (s.ctrl = .running ∧ s.halted = false ∧ 64 ≤ s.ip.toNat ∧ t = abort .fetchRange s) ∨
      (s.ctrl = .running ∧ s.halted = false ∧ s.ip.toNat < 64 ∧
        exec (decode (s.rom.get s.ip.toNat)) (advance s) = .next t) := by
  rcases issue_cases s with ⟨-, hi⟩ | ⟨-, -, hi⟩ | ⟨hr, hh, hip, hi⟩ | ⟨hr, hh, hip, hi⟩ <;>
    simp only [step, hi] at h
  · cases h
  · cases h; exact .inl rfl
  · cases h; exact .inr (.inl ⟨hr, hh, hip, rfl⟩)
  · exact .inr (.inr ⟨hr, hh, hip, h⟩)

theorem step_parameters {s t : State} (h : step s = .next t) : SameParameters s t := by
  rcases step_cases h with rfl | ⟨-, -, -, rfl⟩ | ⟨-, -, -, hexec⟩
  · exact ⟨rfl, rfl⟩
  · exact ⟨rfl, rfl⟩
  · exact exec_parameters (s := advance s) hexec

theorem runLoop_parameters {n : Nat} {s t : State} (h : runLoop n s = .next t) : SameParameters s t := by
  refine runLoop_keeps (P := SameParameters s) (fun u v hu hstep => ?_) n s t ⟨rfl, rfl⟩ h
  obtain ⟨hrom, hbits⟩ := step_parameters hstep
  exact ⟨hrom.trans hu.1, hbits.trans hu.2⟩

/-- Settles O32: each operation but the load keeps the list of cells, so every read of it. -/
theorem noInstructionWritesTheRom : Obligations.NoInstructionWritesTheRom := by
  intro s t
  have reads (h : t.rom = s.rom) : t.rom = s.rom ∧ ∀ a, t.rom.romRead a = s.rom.romRead a :=
    ⟨h, fun a => by rw [h]⟩
  refine ⟨fun i h => reads (exec_parameters h).1, fun h => reads (step_parameters h).1, fun op hop h => reads ?_⟩
  cases op with
  | load b => exact absurd rfl (hop b)
  | reset =>
    cases h
    rw [hostReset_eq]
  | step => exact (step_parameters h).1
  | run fuel =>
    simp only [applyHost] at h
    split at h
    · cases h
    · exact (runLoop_parameters h).1
  | readState =>
    cases h
    rfl

/-- Settles O33: the ALU instructions write their destination, li the registers of its mask, no other one any. -/
theorem registersChangeOnlyAtTheDestinations : Obligations.RegistersChangeOnlyAtTheDestinations := by
  intro i s t h hna k hk
  rcases exec_effect h hna with ⟨bx, bY, op, d, v, b, r, c, z, -, hd, rfl⟩ | ⟨m, v, r, c, z, rfl, rfl⟩ | ⟨g, -, rfl⟩ |
    ⟨-, -, -, ⟨p, rfl⟩ | ⟨c, -, rfl⟩⟩
  · rw [hd, destMask_getLsbD] at hk
    exact Regs.get_set_of_ne _ _ (of_decide_eq_false hk)
  · exact (Regs.get_latch s.regs m v k).trans (if_neg (Bool.eq_false_iff.1 hk))
  · rfl
  · rfl
  · rfl

/-- Settles O34: li, clc, the branches and the halts leave all four. -/
theorem onlyAluInstructionsWriteSelectorsAndBus : Obligations.OnlyAluInstructionsWriteSelectorsAndBus := by
  intro i s t h hna halu
  rcases exec_effect h hna with ⟨bx, bY, op, d, v, b, r, c, z, halu', -, -⟩ | ⟨m, v, r, c, z, -, rfl⟩ | ⟨g, -, rfl⟩ |
    ⟨-, -, -, ⟨p, rfl⟩ | ⟨c, -, rfl⟩⟩
  · exact absurd halu' (Bool.eq_false_iff.1 halu)
  all_goals exact ⟨rfl, rfl, rfl, rfl⟩

/-- Settles O35: clc, the branches and the halts are what is left, and only clc writes carry. -/
theorem flagsHaveOnlyTheirNamedWriters : Obligations.FlagsHaveOnlyTheirNamedWriters := by
  intro i s t h hna halu hli
  rcases exec_effect h hna with ⟨bx, bY, op, d, v, b, r, c, z, halu', -, -⟩ | ⟨m, v, r, c, z, rfl, -⟩ |
    ⟨g, rfl, rfl⟩ | ⟨-, -, -, ⟨p, rfl⟩ | ⟨c, -, rfl⟩⟩
  · exact absurd halu' (Bool.eq_false_iff.1 halu)
  · cases hli
  · exact ⟨rfl, rfl, fun hclc => nomatch hclc⟩
  · exact ⟨rfl, rfl, fun _ => rfl⟩
  · exact ⟨rfl, rfl, fun _ => rfl⟩

/-- The zero flag says whether hold is 0 (R17, R19, R82). -/
abbrev ZeroDescribesHold (s : State) : Prop := s.zero = decide (s.hold = 0)

/-- An evaluation writes zero and hold together (R82). -/
theorem aluEval_zeroDescribesHold {s t : State} (h : aluEval s = .ok t) : ZeroDescribesHold t := by
  obtain ⟨op, hop⟩ := exists_aluCode (aluEval_ok h).1
  cases (aluEval_of_code (op := op) (by simp [hop])).symm.trans h
  rfl

theorem writeEnable_zeroDescribesHold {m : BitVec 4} {s t : State} (h : writeEnable m s = .ok t) :
    ZeroDescribesHold t := by
  unfold writeEnable at h
  split at h
  · cases h
  · exact aluEval_zeroDescribesHold h

theorem aluSequence_zeroDescribesHold {bx bY : BitVec 1} {op : BitVec 3} {d : BitVec 2} {s t : State}
    (h : aluSequence bx bY op d s = .ok t) : ZeroDescribesHold t := by
  unfold aluSequence at h
  split at h
  · cases h
  · exact writeEnable_zeroDescribesHold h

theorem loadSequence_zeroDescribesHold {m : BitVec 4} {s t : State} (h : loadSequence m s = .ok t) :
    ZeroDescribesHold t := by
  unfold loadSequence at h
  split at h
  · cases h
  · next u hu =>
    cases h
    exact writeEnable_zeroDescribesHold (t := u) hu

/-- A sequence that does not abort settles in the state it answers. -/
theorem settle_of_not_aborted {P : State → Prop} {s : State} {r : Try} (hP : ∀ t, r = .ok t → P t)
    (hna : (settle s r).ctrl ≠ .aborted) : P (settle s r) := by
  cases r with
  | ok t => exact hP t rfl
  | error w => exact absurd rfl hna

/-- Settles O36: the sequences end with an evaluation, and the other instructions write neither field. -/
theorem zeroAlwaysDescribesHold : Obligations.ZeroAlwaysDescribesHold := by
  intro i s t h hna hs
  obtain ⟨u, hu, hcases⟩ := exec_cases i s
  cases hu.symm.trans h
  rcases hcases with ⟨p, rfl, -⟩ | ⟨bx, bY, op, d, rfl⟩ | ⟨m, rfl⟩ | ⟨c, -, rfl⟩ | rfl
  · exact hs
  · exact settle_of_not_aborted (fun t => aluSequence_zeroDescribesHold) hna
  · exact settle_of_not_aborted (fun t => loadSequence_zeroDescribesHold) hna
  · exact hs
  · exact hs

end Sys2Proof.Machine
end

section
/-! SUPPORT. The ROM after a load, and its one canonical form: O39 and O40 (20_memory.md R41 to R48). -/

namespace Sys2Proof.Machine

/-- Bits 8..0 of the two bytes, low byte first (R44, R45). -/
theorem cellOfBytes_toNat (lo hi : Byte) : (cellOfBytes lo hi).toNat = (lo.toNat + 256 * hi.toNat) % 512 :=
  BitVec.toNat_ofNat _ _

theorem imageCell_toNat (b : List Byte) (k : Nat) :
    (imageCell b k).toNat =
      if 2 * k + 1 < b.length then ((b.getD (2 * k) 0).toNat + 256 * (b.getD (2 * k + 1) 0).toNat) % 512 else 0 := by
  unfold imageCell
  split
  · exact cellOfBytes_toNat _ _
  · rfl

/-- Settles O39: the load tabulates the image's cells. -/
theorem loadFillsEveryCell : Obligations.LoadFillsEveryCell := by
  intro b s
  refine ⟨fun h => ⟨_, hostLoad_of_not_running b h, loadRom_wf b, fun k hk => ?_⟩, fun h => if_pos h⟩
  rw [loadRom_get b hk, imageCell_toNat]

/-- The head of a canonical list is the first cell that does not read 0. -/
theorem Memory.head_le_head {a a' : Nat} {v v' : Word} {m m' : Memory} {lo : Nat}
    (hm : Memory.wfFrom lo ((a, v) :: m) = true) (hm' : Memory.wfFrom lo ((a', v') :: m') = true)
    (hread : ∀ k, k < 64 → Memory.get ((a, v) :: m) k = Memory.get ((a', v') :: m') k) : a' ≤ a := by
  obtain ⟨-, ha, hv, -⟩ := Memory.wfFrom_cons.1 hm
  obtain ⟨-, ha', hv', hrest⟩ := Memory.wfFrom_cons.1 hm'
  by_contra hlt
  have hbelow : Memory.get ((a', v') :: m') a = Memory.unlisted :=
    Memory.get_below (lo := a') (Memory.wfFrom_cons.2 ⟨le_rfl, ha', hv', hrest⟩) (by omega)
  have hhead : Memory.get ((a, v) :: m) a = v := by simp [Memory.get]
  exact hv (hhead.symm.trans ((hread a ha).trans hbelow))

/-- Canonical lists from one address on that read alike are equal, by induction on the list. -/
theorem Memory.eq_of_get_eq {lo : Nat} {m m' : Memory} (hm : Memory.wfFrom lo m = true)
    (hm' : Memory.wfFrom lo m' = true) (hread : ∀ k, k < 64 → m.get k = m'.get k) : m = m' := by
  have listed {lo a : Nat} {v : Word} {m : Memory} (hm : Memory.wfFrom lo ((a, v) :: m) = true) :
      a < 64 ∧ Memory.get ((a, v) :: m) a ≠ Memory.unlisted := by
    obtain ⟨-, ha, hv, -⟩ := Memory.wfFrom_cons.1 hm
    exact ⟨ha, by simpa [Memory.get] using hv⟩
  induction m generalizing lo m' with
  | nil =>
    cases m' with
    | nil => rfl
    | cons c m' => exact absurd (hread c.1 (listed hm').1).symm (listed hm').2
  | cons c m ih =>
    obtain ⟨a, v⟩ := c
    cases m' with
    | nil => exact absurd (hread a (listed hm).1) (listed hm).2
    | cons c' m' =>
      obtain ⟨a', v'⟩ := c'
      obtain rfl : a' = a :=
        le_antisymm (Memory.head_le_head hm hm' hread) (Memory.head_le_head hm' hm fun k hk => (hread k hk).symm)
      obtain ⟨-, ha, -, hrest⟩ := Memory.wfFrom_cons.1 hm
      obtain ⟨-, -, -, hrest'⟩ := Memory.wfFrom_cons.1 hm'
      obtain rfl : v = v' := by simpa [Memory.get] using hread a' ha
      rw [ih hrest hrest' fun k hk => ?_]
      by_cases hka : k < a' + 1
      · rw [Memory.get_below hrest hka, Memory.get_below hrest' hka]
      · have hne : a' ≠ k := by omega
        simpa [Memory.get, hne] using hread k hk

/-- Settles O40: a read inside the ROM is the cell. -/
theorem canonicalRomsThatReadAlikeAreEqual : Obligations.CanonicalRomsThatReadAlikeAreEqual := by
  intro m m' hm hm' hread
  refine Memory.eq_of_get_eq hm hm' fun k hk => ?_
  simpa [Memory.romRead, hk] using hread k hk

end Sys2Proof.Machine
end

section
/-! SUPPORT. The invariant of a cycle boundary: O47, O48 and O49 (10_state.md R15, R20, R23, R25, R26;
70_reset_and_hazards.md R172, R179). Inside a step the invariant holds of the advanced state, and every instruction
keeps it from a running one. -/

namespace Sys2Proof.Machine

/-- A count that the counter holds is in its range (R25). -/
theorem wrapCycle_wrapCycle (b : Option Nat) (n : Nat) : wrapCycle b (wrapCycle b n) = wrapCycle b n := by
  cases b with
  | none => rfl
  | some b => exact Nat.mod_mod n (2 ^ b)

/-- Settles O48: the reset table meets the invariant, and before the first reset it asks for the canonical rom only. -/
theorem resetMeetsTheBoundaryInvariant : Obligations.ResetMeetsTheBoundaryInvariant := by
  refine ⟨by decide, ⟨rfl, fun h => absurd rfl h⟩, fun s hwf => ?_⟩
  rw [hostReset_eq]
  have hcycle : wrapCycle s.cycleBits 0 = 0 := by
    cases s.cycleBits with
    | none => rfl
    | some b => exact Nat.zero_mod _
  exact atBoundary_of_running rfl hwf ⟨rfl, rfl, rfl⟩ rfl hcycle (by decide : (0#3).toNat < 6) (Nat.zero_le 64)

/-- An abort meets the invariant, whatever the free values it draws (R142). -/
theorem abort_atBoundary {why : AbortReason} {s : State} (hwf : s.rom.wf = true) (hwhy : why ≠ .none) :
    AtBoundary (abort why s) := by
  refine ⟨hwf, fun _ => ⟨?_, rfl, wrapCycle_wrapCycle _ _, fun h => absurd rfl h⟩⟩
  simpa [ControllerConsistent] using hwhy

/-- A halt with a cause meets the invariant (R23). -/
theorem haltWith_atBoundary {c : HaltCause} {s : State} (hr : s.ctrl = .running) (hb : AtBoundary s)
    (hc : c ≠ .none) : AtBoundary (haltWith c s) := by
  obtain ⟨hwf, ⟨-, -, hreason⟩, himm, hcycle, hop, hip⟩ := (atBoundary_running hr).1 hb
  refine ⟨hwf, fun _ => ⟨?_, himm, hcycle, fun _ => ⟨hop, hip⟩⟩⟩
  simpa [ControllerConsistent, hreason] using hc

/-- The strobe aborts for a reason. -/
theorem writeEnable_error_ne_none {m : BitVec 4} {s : State} {w : AbortReason} (h : writeEnable m s = .error w) :
    w ≠ .none := by
  unfold writeEnable at h
  split at h
  · next hsource =>
    cases h
    simp [(writeSource_error hsource).1]
  · simp [(aluEval_error h).1]

theorem aluSequence_error_ne_none {bx bY : BitVec 1} {op : BitVec 3} {d : BitVec 2} {s : State} {w : AbortReason}
    (h : aluSequence bx bY op d s = .error w) : w ≠ .none := by
  unfold aluSequence at h
  split at h
  · next heval =>
    cases h
    simp [(aluEval_error heval).1]
  · exact writeEnable_error_ne_none h

theorem loadSequence_error_ne_none {m : BitVec 4} {s : State} {w : AbortReason}
    (h : loadSequence m s = .error w) : w ≠ .none := by
  unfold loadSequence at h
  split at h
  · next hstrobe =>
    cases h
    exact writeEnable_error_ne_none hstrobe
  · cases h

/-- A running state that meets the invariant settles in one that does. -/
theorem settle_atBoundary {s : State} {r : Try} (hwf : s.rom.wf = true) (hok : ∀ t, r = .ok t → AtBoundary t)
    (herror : ∀ w, r = .error w → w ≠ .none) : AtBoundary (settle s r) := by
  cases r with
  | ok t => exact hok t rfl
  | error w => exact abort_atBoundary hwf (herror w rfl)

/-- Every instruction that starts in a running state keeps the invariant. -/
theorem exec_atBoundary {i : Instr} {s t : State} (hr : s.ctrl = .running) (hb : AtBoundary s)
    (h : exec i s = .next t) : AtBoundary t := by
  obtain ⟨hwf, hctrl, himm, hcycle, hop, hip⟩ := (atBoundary_running hr).1 hb
  obtain ⟨u, hu, hcases⟩ := exec_cases i s
  cases hu.symm.trans h
  rcases hcases with ⟨p, rfl, hp⟩ | ⟨bx, bY, op, d, rfl⟩ | ⟨m, rfl⟩ | ⟨c, hc, rfl⟩ | rfl
  · have hp : p.toNat ≤ 64 := hp.elim (fun e => e ▸ hip) le_of_lt
    exact atBoundary_of_running hr hwf hctrl himm hcycle hop hp
  · refine settle_atBoundary hwf (fun t ht => ?_) fun w => aluSequence_error_ne_none
    obtain ⟨hop', v, b, r, c, z, rfl⟩ := aluSequence_ok ht
    exact atBoundary_of_running hr hwf hctrl himm hcycle hop' hip
  · refine settle_atBoundary hwf (fun t ht => ?_) fun w => loadSequence_error_ne_none
    obtain ⟨-, hin, v, r, c, z, rfl⟩ := loadSequence_ok ht
    have hip' : (s.ip + 1).toNat ≤ 64 := by rw [ip_succ hin]; exact hin
    exact atBoundary_of_running hr hwf hctrl rfl hcycle hop hip'
  · exact haltWith_atBoundary hr hb hc
  · exact atBoundary_of_running hr hwf hctrl himm hcycle hop hip

/-- The fetch keeps the invariant: a 7-bit pointer holds 64, and the counter wraps (R62, D6). -/
theorem advance_atBoundary {s : State} (hr : s.ctrl = .running) (hb : AtBoundary s) (hip : s.ip.toNat < 64) :
    AtBoundary (advance s) := by
  obtain ⟨hwf, hctrl, himm, -, hop, -⟩ := (atBoundary_running hr).1 hb
  have hip' : (advance s).ip.toNat ≤ 64 := (ip_succ hip).trans_le hip
  exact atBoundary_of_running (s := advance s) hr hwf hctrl himm (wrapCycle_wrapCycle _ _) hop hip'

/-- Settles O47: a step is none, an aborted fetch, or a dispatch in the advanced state. -/
theorem stepKeepsTheBoundaryInvariant : Obligations.StepKeepsTheBoundaryInvariant := by
  intro s t hb h
  rcases step_cases h with rfl | ⟨-, -, -, rfl⟩ | ⟨hr, -, hip, hexec⟩
  · exact hb
  · exact abort_atBoundary hb.1 (by decide)
  · exact exec_atBoundary (s := advance s) hr (advance_atBoundary hr hb hip) hexec

/-- The invariant asks nothing of the rom but its form. -/
theorem load_atBoundary (b : List Byte) {s : State} (hb : AtBoundary s) :
    AtBoundary { s with rom := loadRom b } :=
  ⟨loadRom_wf b, hb.2⟩

/-- Settles O49: a run is steps, and each other operation keeps the invariant by itself. -/
theorem hostOperationsKeepTheBoundaryInvariant : Obligations.HostOperationsKeepTheBoundaryInvariant := by
  intro op s t hb h
  cases op with
  | load b =>
    simp only [applyHost, hostLoad] at h
    split at h
    · cases h
    · cases h
      exact load_atBoundary b hb
  | reset =>
    cases h
    exact resetMeetsTheBoundaryInvariant.2.2 s hb.1
  | step => exact stepKeepsTheBoundaryInvariant s t hb h
  | run fuel =>
    simp only [applyHost] at h
    split at h
    · cases h
    · exact runLoop_keeps stepKeepsTheBoundaryInvariant fuel s t hb h
  | readState =>
    cases h
    exact hb

end Sys2Proof.Machine
end

section
/-! SUPPORT. Runs: O41 to O44 (70_reset_and_hazards.md R173, R177 to R179, R187). -/

namespace Sys2Proof.Machine

/-- A run of a running machine is a step and the rest of the run. -/
theorem runLoop_succ {n : Nat} {s u : State} (hr : s.ctrl = .running) (h : step s = .next u) :
    runLoop (n + 1) s = runLoop n u := by
  simp only [runLoop, if_pos hr, h]

/-- A sequence leaves ctrl and halted, unless it aborts. -/
theorem exec_controller {i : Instr} {s t : State} (h : exec i s = .next t) :
    (t.ctrl = s.ctrl ∧ t.halted = s.halted) ∨ t.ctrl = .halted ∨ t.ctrl = .aborted := by
  by_cases hna : t.ctrl = .aborted
  · exact .inr (.inr hna)
  rcases exec_effect h hna with ⟨bx, bY, op, d, v, b, r, c, z, -, -, rfl⟩ | ⟨m, v, r, c, z, -, rfl⟩ | ⟨g, -, rfl⟩ |
    ⟨-, -, -, ⟨p, rfl⟩ | ⟨c, -, rfl⟩⟩
  case inr.inr.inr.inr => exact .inr (.inl rfl)
  all_goals exact .inl ⟨rfl, rfl⟩

/-- A step of a running machine stays Running, or enters Halted or Aborted (R170). -/
theorem step_controller {s t : State} (hr : s.ctrl = .running) (hh : s.halted = false) (h : step s = .next t) :
    (t.ctrl = .running ∧ t.halted = false) ∨ t.ctrl = .halted ∨ t.ctrl = .aborted := by
  rcases step_running hr hh h with ⟨-, rfl⟩ | ⟨-, hexec⟩
  · exact .inr (.inr rfl)
  · exact (exec_controller hexec).imp_left fun ⟨hc, hd⟩ => ⟨hc.trans hr, hd.trans hh⟩

/-- No step enters PreReset (R170). -/
theorem step_ne_preReset {s t : State} (hs : s.ctrl ≠ .preReset) (h : step s = .next t) : t.ctrl ≠ .preReset := by
  rcases step_cases h with rfl | ⟨hr, hh, -⟩ | ⟨hr, hh, -⟩
  · exact hs
  all_goals rcases step_controller hr hh h with ⟨hc, -⟩ | hc | hc <;> simp [hc]

/-- A run outside PreReset always answers, and stays outside it. -/
theorem runLoop_answers (n : Nat) {s : State} (hs : s.ctrl ≠ .preReset) :
    ∃ t, runLoop n s = .next t ∧ t.ctrl ≠ .preReset := by
  induction n generalizing s with
  | zero => exact ⟨s, rfl, hs⟩
  | succ n ih =>
    by_cases hr : s.ctrl = .running
    · obtain ⟨u, hu⟩ := step_answers hs
      rw [runLoop_succ hr hu]
      exact ih (step_ne_preReset hs hu)
    · exact ⟨s, runLoop_stopped hr, hs⟩

/-- Settles O41: the report is that of the state at which the run stands. -/
theorem runReportsItsEnd : Obligations.RunReportsItsEnd := by
  intro n s hs
  obtain ⟨t, ht, hpre⟩ := runLoop_answers n hs
  have hrun : hostRun n s = .next (t, runReport t) := by simp only [hostRun, if_neg hs, ht]
  refine ⟨t, ht, hpre, fun hc => ?_, fun hc => ?_, fun hc => ?_⟩ <;> rw [hrun, runReport, hc]

/-- A completed step fetched its word inside the ROM, and counted it (R62, R187). -/
theorem step_fetches {s u : State} (hb : s.cycleBits = none) (hr : s.ctrl = .running) (hh : s.halted = false)
    (h : step s = .next u) (hna : u.ctrl ≠ .aborted) : ReadyToFetch s ∧ u.cycleCount = s.cycleCount + 1 := by
  refine ⟨⟨hr, hh, ?_⟩, (step_cycleCount hr hh h hna).trans (by rw [hb]; rfl)⟩
  rcases step_running hr hh h with ⟨-, rfl⟩ | ⟨hip, -⟩
  · exact absurd rfl hna
  · exact hip

/-- Each of the first `k` states of the run from `s` is about to fetch a word. -/
abbrev FetchesFor (k : Nat) (s : State) : Prop := ∀ j, j < k → ∃ u, runLoop j s = .next u ∧ ReadyToFetch u

theorem fetchesFor_succ {k : Nat} {s u : State} (hs : ReadyToFetch s) (h : step s = .next u) (hu : FetchesFor k u) :
    FetchesFor (k + 1) s := by
  intro j hj
  cases j with
  | zero => exact ⟨s, rfl, hs⟩
  | succ j =>
    rw [runLoop_succ hs.1 h]
    exact hu j (by omega)

/-- Settles O42, by induction on the fuel: a step that goes on counts one, and a step that halts is the last. -/
theorem runCountsTheWordsFetched : Obligations.RunCountsTheWordsFetched := by
  intro n
  induction n with
  | zero =>
    intro s t _ hr _ h
    cases h
    exact ⟨fun _ => ⟨rfl, fun j hj => absurd hj (by omega)⟩, fun hc => absurd hc (by simp [hr])⟩
  | succ n ih =>
    intro s t hb hr hh h
    obtain ⟨u, hu⟩ := step_answers (s := s) (by simp [hr])
    rw [runLoop_succ hr hu] at h
    rcases step_controller hr hh hu with ⟨hur, huh⟩ | huh | hua
    · obtain ⟨hs, hcount⟩ := step_fetches hb hr hh hu (by simp [hur])
      obtain ⟨running, halted⟩ := ih u t ((step_parameters hu).2.trans hb) hur huh h
      refine ⟨fun hc => ?_, fun hc => ?_⟩
      · obtain ⟨hn, hfetch⟩ := running hc
        exact ⟨by omega, fetchesFor_succ hs hu hfetch⟩
      · obtain ⟨k, hk1, hkn, hk, hend, hfetch⟩ := halted hc
        refine ⟨k + 1, by omega, by omega, by omega, ?_, fetchesFor_succ hs hu hfetch⟩
        rwa [runLoop_succ hr hu]
    · obtain ⟨hs, hcount⟩ := step_fetches hb hr hh hu (by simp [huh])
      rw [runLoop_stopped (by simp [huh])] at h
      cases h
      refine ⟨fun hc => absurd hc (by simp [huh]), fun _ => ⟨1, le_rfl, by omega, hcount, ?_, ?_⟩⟩
      · rw [runLoop_succ hr hu]
        rfl
      · exact fetchesFor_succ hs hu fun j hj => absurd hj (by omega)
    · rw [runLoop_stopped (by simp [hua])] at h
      cases h
      exact ⟨fun hc => absurd hc (by simp [hua]), fun hc => absurd hc (by simp [hua])⟩

end Sys2Proof.Machine
end

section
/-! SUPPORT. Runs from two resets: O43 and O44 (70_reset_and_hazards.md R173). The states that two resets leave over
one rom differ in the number of the next free value only (log 2), which nothing reads but an abort; so each operation
commutes with a change of it, up to the abort. -/

namespace Sys2Proof.Machine

/-- The state with another number for the next free value (log 2). -/
def withFreeIndex (k : Nat) (s : State) : State := { s with freeIndex := k }

theorem aluEval_withFreeIndex (k : Nat) (s : State) :
    aluEval (withFreeIndex k s) = (aluEval s).map (withFreeIndex k) := by
  cases h : aluOpOfCode s.aluOp with
  | none => simp only [aluEval, withFreeIndex, h]; rfl
  | some op => rw [aluEval_of_code (s := withFreeIndex k s) h, aluEval_of_code h]; rfl

theorem writeEnable_withFreeIndex (k : Nat) (m : BitVec 4) (s : State) :
    writeEnable m (withFreeIndex k s) = (writeEnable m s).map (withFreeIndex k) := by
  have hsource : writeSource (withFreeIndex k s) = writeSource s := rfl
  unfold writeEnable
  rw [hsource]
  cases writeSource s with
  | error w => rfl
  | ok v => exact aluEval_withFreeIndex k { s with regs := s.regs.latch m v }

theorem aluSequence_withFreeIndex (k : Nat) (bx bY : BitVec 1) (op : BitVec 3) (d : BitVec 2) (s : State) :
    aluSequence bx bY op d (withFreeIndex k s) = (aluSequence bx bY op d s).map (withFreeIndex k) := by
  have heval : aluEval { withFreeIndex k s with bankX := bx, bankY := bY, aluOp := op } =
      (aluEval { s with bankX := bx, bankY := bY, aluOp := op }).map (withFreeIndex k) :=
    aluEval_withFreeIndex k { s with bankX := bx, bankY := bY, aluOp := op }
  unfold aluSequence
  rw [heval]
  cases aluEval { s with bankX := bx, bankY := bY, aluOp := op } with
  | error w => rfl
  | ok t => exact writeEnable_withFreeIndex k (destMask d) { t with bus := t.hold }

theorem loadSequence_withFreeIndex (k : Nat) (m : BitVec 4) (s : State) :
    loadSequence m (withFreeIndex k s) = (loadSequence m s).map (withFreeIndex k) := by
  have hstrobe : writeEnable m { withFreeIndex k s with immMode := true } =
      (writeEnable m { s with immMode := true }).map (withFreeIndex k) :=
    writeEnable_withFreeIndex k m { s with immMode := true }
  unfold loadSequence
  rw [hstrobe]
  cases writeEnable m { s with immMode := true } with
  | error w => rfl
  | ok t => rfl

theorem condBranch_withFreeIndex (k : Nat) (inv sel : Bool) (a : BitVec 6) (s : State) :
    condBranch inv sel a (withFreeIndex k s) = withFreeIndex k (condBranch inv sel a s) := by
  rw [condBranch_eq, condBranch_eq]
  rfl

/-- Two states that no claim after a reset tells apart: they agree on ctrl and the abort reason, and unless aborted on
all else but the number of the next free value. -/
abbrev SameRun (t t' : State) : Prop :=
  t.ctrl = t'.ctrl ∧ t.abortReason = t'.abortReason ∧ (t.ctrl ≠ .aborted → ∃ k, t' = withFreeIndex k t)

theorem sameRun_withFreeIndex (k : Nat) (t : State) : SameRun t (withFreeIndex k t) := ⟨rfl, rfl, fun _ => ⟨k, rfl⟩⟩

theorem sameRun_abort (why : AbortReason) (s s' : State) : SameRun (abort why s) (abort why s') :=
  ⟨rfl, rfl, fun h => absurd rfl h⟩

theorem sameRun_settle (k : Nat) (s : State) (r : Try) :
    SameRun (settle s r) (settle (withFreeIndex k s) (r.map (withFreeIndex k))) := by
  cases r with
  | ok t => exact sameRun_withFreeIndex k t
  | error w => exact sameRun_abort w _ _

/-- Every instruction answers the same from both states. -/
theorem exec_sameRun (i : Instr) (k : Nat) (s : State) :
    ∃ t t', exec i s = .next t ∧ exec i (withFreeIndex k s) = .next t' ∧ SameRun t t' := by
  have branch (inv sel : Bool) (a : BitVec 6) :
      SameRun (condBranch inv sel a s) (condBranch inv sel a (withFreeIndex k s)) := by
    rw [condBranch_withFreeIndex]
    exact sameRun_withFreeIndex k _
  have alu (bx bY : BitVec 1) (op : BitVec 3) (d : BitVec 2) :
      SameRun (settle s (aluSequence bx bY op d s))
        (settle (withFreeIndex k s) (aluSequence bx bY op d (withFreeIndex k s))) := by
    rw [aluSequence_withFreeIndex]
    exact sameRun_settle k s _
  cases i with
  | jc a => exact ⟨_, _, rfl, rfl, branch false false a⟩
  | jz a => exact ⟨_, _, rfl, rfl, branch false true a⟩
  | jnc a => exact ⟨_, _, rfl, rfl, branch true false a⟩
  | jnz a => exact ⟨_, _, rfl, rfl, branch true true a⟩
  | jmp a => exact ⟨_, _, rfl, rfl, sameRun_withFreeIndex k (branchTo a s)⟩
  | add bx bY d | xor bx bY d | and bx bY d | or bx bY d => exact ⟨_, _, rfl, rfl, alu bx bY _ d⟩
  | passx bx bY d | passy bx bY d | aluOp6 bx bY d | aluOp7 bx bY d => exact ⟨_, _, rfl, rfl, alu bx bY _ d⟩
  | li m =>
    refine ⟨_, _, rfl, rfl, ?_⟩
    rw [loadSequence_withFreeIndex]
    exact sameRun_settle k s _
  | clc g => exact ⟨_, _, rfl, rfl, sameRun_withFreeIndex k { s with carry := false }⟩
  | halt | reserved | noopInvalid23 | noopInvalid47 =>
    exact ⟨_, _, rfl, rfl, sameRun_withFreeIndex k (haltWith _ s)⟩

/-- A step of the two running states leaves two that are still the same. -/
theorem step_sameRun {k : Nat} {s : State} (hr : s.ctrl = .running) (hh : s.halted = false) :
    ∃ t t', step s = .next t ∧ step (withFreeIndex k s) = .next t' ∧ SameRun t t' := by
  by_cases hip : s.ip.toNat < 64
  · rw [step_inside hr hh hip, step_inside (s := withFreeIndex k s) hr hh hip]
    exact exec_sameRun _ k (advance s)
  · have hout : 64 ≤ s.ip.toNat := Nat.le_of_not_lt hip
    exact ⟨_, _, step_outside hr hh hout, step_outside (s := withFreeIndex k s) hr hh hout, sameRun_abort _ _ _⟩

/-- Runs of the same length keep the two states the same, by induction on the fuel. -/
theorem runLoop_sameRun {n k : Nat} {s t t' : State} (hh : s.ctrl = .running → s.halted = false)
    (h : runLoop n s = .next t) (h' : runLoop n (withFreeIndex k s) = .next t') : SameRun t t' := by
  induction n generalizing k s with
  | zero =>
    cases h
    cases h'
    exact sameRun_withFreeIndex k _
  | succ n ih =>
    by_cases hr : s.ctrl = .running
    · obtain ⟨u, u', hu, hu', hctrl, hreason, hsame⟩ := step_sameRun (k := k) hr (hh hr)
      rw [runLoop_succ hr hu] at h
      rw [runLoop_succ (s := withFreeIndex k s) hr hu'] at h'
      rcases step_controller hr (hh hr) hu with ⟨hur, huh⟩ | huc | huc
      · obtain ⟨j, rfl⟩ := hsame (by simp [hur])
        exact ih (fun _ => huh) h h'
      all_goals
        rw [runLoop_stopped (by simp [huc])] at h
        rw [runLoop_stopped (by simp [← hctrl, huc])] at h'
        cases h
        cases h'
        exact ⟨hctrl, hreason, hsame⟩
    · rw [runLoop_stopped hr] at h
      rw [runLoop_stopped (s := withFreeIndex k s) hr] at h'
      cases h
      cases h'
      exact sameRun_withFreeIndex k _

/-- Resets over one rom and one width of the counter leave the same state but for the free values (R173). -/
theorem hostReset_eq_withFreeIndex {s s' : State} (hrom : s.rom = s'.rom) (hbits : s.cycleBits = s'.cycleBits) :
    hostReset s' = withFreeIndex s'.freeIndex (hostReset s) := by
  rw [hostReset_eq, hostReset_eq, hrom, hbits]
  rfl

/-- Settles O43: the snapshot does not show the number of the next free value. -/
theorem runAfterResetDependsOnlyOnTheRom : Obligations.RunAfterResetDependsOnlyOnTheRom := by
  intro n s s' t t' hrom hbits h h'
  rw [hostReset_eq_withFreeIndex hrom hbits] at h'
  have hhalted : (hostReset s).halted = false := by rw [hostReset_eq]; rfl
  obtain ⟨hctrl, hreason, hsame⟩ := runLoop_sameRun (fun _ => hhalted) h h'
  refine ⟨hctrl, hreason, fun hna => ?_⟩
  obtain ⟨k, rfl⟩ := hsame hna
  rfl

/-- More fuel does not move a run that has ended (R177). -/
theorem runLoop_more_fuel {n m : Nat} {s t : State} (h : runLoop n s = .next t) (ht : t.ctrl ≠ .running)
    (hle : n ≤ m) : runLoop m s = .next t := by
  induction n generalizing m s with
  | zero =>
    cases h
    exact runLoop_stopped ht
  | succ n ih =>
    by_cases hr : s.ctrl = .running
    · obtain ⟨m, rfl⟩ := Nat.exists_eq_add_of_le' (Nat.one_le_of_lt hle)
      obtain ⟨u, hu⟩ := step_answers (s := s) (by simp [hr])
      rw [runLoop_succ hr hu] at h ⊢
      exact ih h (by omega)
    · rw [runLoop_stopped hr] at h ⊢
      exact h

/-- Settles O44: a run keeps the rom and CYCLE_BITS, so the second reset leaves what the first one left; the larger
fuel gives both ends. -/
theorem resetAndRunAgainGivesTheSameEnd : Obligations.ResetAndRunAgainGivesTheSameEnd := by
  intro n k s t u ht hthalted hu huhalted
  obtain ⟨hrom, hbits⟩ := runLoop_parameters ht
  rw [hostReset_eq] at hrom hbits
  have ht' := runLoop_more_fuel ht (by simp [hthalted]) (le_max_left n k)
  have hu' := runLoop_more_fuel hu (by simp [huhalted]) (le_max_right n k)
  exact (runAfterResetDependsOnlyOnTheRom _ t s u t hrom hbits hu' ht').2.2 (by simp [huhalted])

end Sys2Proof.Machine
end

section
/-! SUPPORT. The trace record, the pseudo-instructions and the snapshot: O45, O46 and O50 (60_exceptions.md R153,
30_encoding.md R76, 10_state.md R32). -/

namespace Sys2Proof.Machine

theorem hostStep_eq {s t : State} (h : step s = .next t) : hostStep s = .next (t, stepReport s t) := by
  simp only [hostStep, h]

/-- Settles O45: the report follows what the step issued, and an aborted fetch ends in FETCH_RANGE. -/
theorem traceRecordsTheCycle : Obligations.TraceRecordsTheCycle := by
  intro s t hr hh h
  refine ⟨fun hip => ?_, fun hip => ?_⟩
  · rw [hostStep_eq h, stepReport, issue_running hr hh, fetch_inside hip]
    rfl
  · cases (step_outside hr hh hip).symm.trans h
    rw [hostStep_eq h, stepReport, issue_running hr hh, fetch_outside hip]
    rfl

/-- A nop up to 62 is a jmp to the next address, which six bits hold (R76). -/
theorem nop_words_eq {a : BitVec 6} {w : Word} (h : (AsmLine.nop a).words = some [w]) :
    a.toNat ≤ 62 ∧ w = encode (.jmp (a + 1)) := by
  simp only [AsmLine.words] at h
  split at h
  · next hle =>
    cases h
    exact ⟨hle, rfl⟩
  · cases h

/-- The nop's target is the pointer after its fetch. -/
theorem ofNat_succ_eq_ip {a : BitVec 6} {p : BitVec 7} (hap : a.toNat = p.toNat) (ha : a.toNat ≤ 62) :
    BitVec.ofNat 7 (a + 1).toNat = p + 1 := by
  have hp : p.toNat < 64 := by omega
  have hsucc : (a + 1).toNat = a.toNat + 1 := by
    rw [BitVec.toNat_add]
    exact Nat.mod_eq_of_lt (by simpa using Nat.lt_succ_of_le (Nat.succ_le_succ ha))
  apply BitVec.eq_of_toNat_eq
  rw [ip_succ hp, BitVec.toNat_ofNat, hsucc, hap]
  omega

/-- nop, in its place, is the fetch alone (R76). -/
theorem step_nop {s : State} {a : BitVec 6} {w : Word} (hs : ReadyToFetch s) (ha : a.toNat = s.ip.toNat)
    (hw : (AsmLine.nop a).words = some [w]) (hcell : s.rom.romRead s.ip.toNat = some w) :
    step s = .next (advance s) := by
  obtain ⟨hr, hh, hip⟩ := hs
  obtain ⟨hle, rfl⟩ := nop_words_eq hw
  obtain ⟨-, hget⟩ := Memory.romRead_eq_some.1 hcell
  rw [step_inside hr hh hip, hget, decode_encode_jmp, exec_jmp, ofNat_succ_eq_ip ha hle]
  rfl

/-- clr is li with 0, its payload in the next cell (R76). -/
theorem step_clr {s : State} {m : BitVec 4} {w v : Word} {op : AluOp} (hs : ReadyToFetch s) (hop : s.aluOp = aluCode op)
    (hwords : (AsmLine.clr m).words = some [w, v])
    (hcell : s.rom.romRead s.ip.toNat = some w) (hnext : s.rom.romRead (s.ip.toNat + 1) = some v) {r : Regs}
    (hregs : r = s.regs.latch m 0) :
    step s = .next { advance s with
      regs := r
      hold := (aluFn op (r.read .x s.bankX) (r.read .y s.bankY)).1
      carry := (aluFn op (r.read .x s.bankX) (r.read .y s.bankY)).2
      zero := decide ((aluFn op (r.read .x s.bankX) (r.read .y s.bankY)).1 = 0)
      immMode := false
      ip := s.ip + 2 } := by
  obtain ⟨hr, hh, -⟩ := hs
  cases hwords
  obtain ⟨hin, hget⟩ := Memory.romRead_eq_some.1 hcell
  have hpayload : (advance s).rom.romRead (advance s).ip.toNat = some ((0 : Byte).setWidth 9) := by
    rw [advance_ip, ip_succ hin]
    exact hnext
  have hip2 : (advance s).ip + 1 = s.ip + 2 := BitVec.add_assoc s.ip 1 1
  rw [step_inside hr hh hin, hget, decode_encode_li,
    (liWritesTheMaskAndReevaluates m (advance s) op _ hop hpayload r hregs).1, hip2]
  rfl

/-- Settles O46: nop is a jmp to the next address, mov a pass, and clr a li with 0. -/
theorem pseudoInstructionsDoWhatTheySay : Obligations.PseudoInstructionsDoWhatTheySay := by
  refine ⟨fun s a w => step_nop, fun s rd sel w himm => ⟨fun hw => ?_, fun hw => ?_⟩,
    fun s m w v op hs _ hop hwords hcell hnext r hregs => ⟨?_, fun i => ?_⟩⟩
  · cases hw
    rw [decodeOfEncodeIsTheInstruction (.passx sel 0 rd) rfl]
    exact ⟨_, (passWritesTheOperand sel 0 rd s himm _ _ rfl rfl).1, rfl, rfl⟩
  · cases hw
    rw [decodeOfEncodeIsTheInstruction (.passy 0 sel rd) rfl]
    exact ⟨_, (passWritesTheOperand 0 sel rd s himm _ _ rfl rfl).2, rfl, rfl⟩
  · exact step_clr hs hop hwords hcell hnext hregs
  · rw [hregs, Regs.get_latch]

/-- Settles O50: equal snapshots have equal fields, and the three fields left are the state's own. -/
theorem readStateReturnsEveryField : Obligations.ReadStateReturnsEveryField := by
  intro s
  refine ⟨rfl, rfl, fun s' h => ?_⟩
  obtain ⟨⟩ := s
  obtain ⟨⟩ := s'
  cases h
  rfl

end Sys2Proof.Machine
end
